-- ==== Sys2Proof/Word.lean ====
section
/-! DEFINITION. Words of the block: the 8-bit data port, the 16-bit address port, the 20-bit
transaction word (spec/30_encoding.md R80, spec/00_scope.md R5), and the plain-data form of a byte store. -/

namespace Sys2Proof

/-- One byte: the data width `DW` = 8 (R5). -/
abbrev Byte := BitVec 8

/-- A bus or cartridge-port address: the address width `AW` = 16 (R5, R50). -/
abbrev Addr := BitVec 16

/-- The operation selector `sel[3:0]` (R80, R81). -/
abbrev Sel := BitVec 4

/-- The 20-bit transaction word `TW = {sel[3:0], addr[15:0]}` (R80). -/
abbrev TxnWord := BitVec 20

/-- A byte store: the listed (index, byte) pairs, strictly rising in index, none equal to
`Config.unlistedByte`, which is what every index not listed reads as (`Memory.wf`). -/
abbrev Memory := List Host.Cell

end Sys2Proof
end

