-- ==== Sys2Proof/Config.lean ====
section
/-! DEFINITION. The block's parameters. The fixed ones (spec/00_scope.md R5) are constants here. The
open ones (R6) are the fields of `Params`, plain data that `State` carries and no step changes, so
that a statement about every state is a statement about every choice of them; `ROM` and `RamInit`
are operands of HOST.LOAD and HOST.ATTACH (Syntax.lean). -/

namespace Sys2Proof

namespace Config

/-- `BANK_SIZE`: a bank is a 16 KiB slice of the ROM image (R5). -/
def bankSize : Nat := 0x4000

/-- `HDR_MIN`: the least length of a ROM image (R5, R21). -/
def hdrMin : Nat := 0x150

/-- `WRAM_SIZE` (R5, R26). -/
def wramSize : Nat := 0x2000

/-- `HRAM_SIZE` (R5, R27). -/
def hramSize : Nat := 0x7F

/-- `BANK_RESET`: the value HOST.LOAD and HOST.DISPOSE give the bank register (R5, R23). -/
def bankReset : BitVec 5 := 1

/-- `OPEN_BUS`: the value of a read that nothing drives (R5, R57). -/
def openBus : Byte := 0xFF

/-- What an index that a store's listing does not name reads as. It is only the listing's
convention: any contents of a store can be listed. DESIGN CHOICE (log 2) where it shows: the stores
of `State.reset` list nothing. -/
def unlistedByte : Byte := 0x00

end Config

/-- The controller-type tag, "one of a fixed enumeration" (R115); the names are those of the
default table R120. The tag is metadata: it selects nothing (R22). -/
inductive CartType where
  | romOnly | mbc1 | mbc1Ram | mbc1RamBattery
  | mbc2 | mbc2Battery
  | romRam | romRamBattery
  | mmm01 | mmm01Ram | mmm01RamBattery
  | mbc3TimerBattery | mbc3TimerRamBattery | mbc3 | mbc3Ram | mbc3RamBattery
  | mbc5 | mbc5Ram | mbc5RamBattery | mbc5Rumble | mbc5RumbleRam | mbc5RumbleRamBattery
  | mbc6 | mbc7SensorRumbleRamBattery
  | pocketCamera | bandaiTama5 | huC3 | huC1RamBattery
  deriving DecidableEq, Repr

/-- The tags that R6 wants some code to be mapped to. -/
def requiredTypes : List CartType := [.romOnly, .mbc1, .mbc1Ram, .mbc1RamBattery]

/-- The constraint R6 puts on `CartTypeTable`: it "must at least map codes to ROM_ONLY, MBC1, MBC1+RAM,
MBC1+RAM+BATTERY". A code is mapped by the first pair that names it. -/
def mapsRequiredTypes (t : List (Byte × CartType)) : Bool :=
  requiredTypes.all fun tag => t.any fun e => (t.find? fun x => x.1 == e.1).map Prod.snd == some tag

/-- A controller-type table: code and tag pairs that meet the constraint of R6. A configuration that
breaks it cannot be written (log 24). -/
abbrev CartTypeTable := { t : List (Byte × CartType) // mapsRequiredTypes t = true }

/-- A ROM-bank count. Every count a table yields is at least 1 (R6, R116): a configuration with a
zero entry is refused before any run (92_eei_decisions.md D6), here by not being writable. -/
abbrev BankCount := { n : Nat // 1 ≤ n }

/-- `HdrCkLast`: the offset of the last byte the header checksum sums, 0x14B or 0x14C and nothing
else (R6, R118). -/
inductive ChecksumEnd where
  | through14B
  | through14C
  deriving DecidableEq, Repr

/-- How many bytes the checksum sums: `HdrCkLast - 0x134 + 1` (R118). -/
def ChecksumEnd.count : ChecksumEnd → Nat
  | .through14B => 24
  | .through14C => 25

/-- The open parameters of R6 that are not operands. `sgbFlagOffset` lies below 0x150: "no read in
this file is ever out of bounds" (R111; DEDUCED, log 8). -/
structure Params where
  cartTypeTable : CartTypeTable
  romSizeTable  : List (Byte × BankCount)
  ramSizeTable  : List (Byte × Nat)
  hdrCkLast     : ChecksumEnd
  sgbFlagOffset : Fin 0x150
  titleWs       : List Byte
  deriving DecidableEq, Repr

namespace Config

/-- Default `CartTypeTable` (R120), the codes 0x00 to 0x0D. -/
def cartTypesLow : List (Byte × CartType) :=
  [(0x00, .romOnly), (0x01, .mbc1), (0x02, .mbc1Ram), (0x03, .mbc1RamBattery),
   (0x05, .mbc2), (0x06, .mbc2Battery), (0x08, .romRam), (0x09, .romRamBattery),
   (0x0B, .mmm01), (0x0C, .mmm01Ram), (0x0D, .mmm01RamBattery)]

/-- Default `CartTypeTable` (R120), the codes 0x0F to 0x1E. -/
def cartTypesMid : List (Byte × CartType) :=
  [(0x0F, .mbc3TimerBattery), (0x10, .mbc3TimerRamBattery), (0x11, .mbc3), (0x12, .mbc3Ram),
   (0x13, .mbc3RamBattery), (0x19, .mbc5), (0x1A, .mbc5Ram), (0x1B, .mbc5RamBattery),
   (0x1C, .mbc5Rumble), (0x1D, .mbc5RumbleRam), (0x1E, .mbc5RumbleRamBattery)]

/-- Default `CartTypeTable` (R120), the codes from 0x20 up. -/
def cartTypesHigh : List (Byte × CartType) :=
  [(0x20, .mbc6), (0x22, .mbc7SensorRumbleRamBattery), (0xFC, .pocketCamera),
   (0xFD, .bandaiTama5), (0xFE, .huC3), (0xFF, .huC1RamBattery)]

/-- Default `RomSizeTable` (R121): `N = 2 << code` for the codes 0 to 8. -/
def romSizes : List (Byte × BankCount) :=
  [(0x00, ⟨2, by decide⟩), (0x01, ⟨4, by decide⟩), (0x02, ⟨8, by decide⟩),
   (0x03, ⟨16, by decide⟩), (0x04, ⟨32, by decide⟩), (0x05, ⟨64, by decide⟩),
   (0x06, ⟨128, by decide⟩), (0x07, ⟨256, by decide⟩), (0x08, ⟨512, by decide⟩)]

/-- Default `RamSizeTable` (R122). -/
def ramSizes : List (Byte × Nat) :=
  [(0x00, 0), (0x01, 1), (0x02, 1), (0x03, 4), (0x04, 16), (0x05, 8)]

/-- The defaults of the open parameters (R6, R120 to R122; 92_eei_decisions.md D5, D14 to D16). -/
def defaults : Params where
  cartTypeTable := ⟨cartTypesLow ++ cartTypesMid ++ cartTypesHigh, by decide⟩
  romSizeTable  := romSizes
  ramSizeTable  := ramSizes
  hdrCkLast     := .through14B
  sgbFlagOffset := ⟨0x146, by decide⟩
  titleWs       := [0x09, 0x0A, 0x0B, 0x0C, 0x0D, 0x20]

end Config

end Sys2Proof
end

