-- ==== Sys2Proof/Syntax.lean ====
section
/-! DEFINITION. The transactions of the block (spec/30_encoding.md R80, R81, R96): one constructor
for each of the 28 mnemonics of spec/opcode_table.json. The table's 52 rows are these mnemonics
over power-of-two blocks of addresses (R96); rows of one mnemonic differ only in the address, which
is the constructor's operand. -/

namespace Sys2Proof

/-- A ROM image, the operand of HOST.HDR and HOST.LOAD and the cartridge's `ROM` (R21): `size` is
its length `L`, and byte `i < size` is what `cells` lists for `i` (the first pair that names `i`),
or `Config.unlistedByte`. -/
structure Image where
  size  : Nat
  cells : Memory
  deriving DecidableEq, Repr

/-- The draw `RamInit` of 00_scope.md R6: the contents HOST.ATTACH gives the three bus-owned stores,
which the source does not state (92_eei_decisions.md D4). It is arbitrary, and each HOST.ATTACH has
its own (D18): nature supplies it with the request (log 3). -/
structure RamInit where
  wram0 : Memory
  hram0 : Memory
  ie0   : Byte
  deriving DecidableEq, Repr

/-- One transaction (R80, R81, R96). `a` is the 16-bit address, `v` the 8-bit write value. The
address of a HOST operation is ignored and is no operand (R80). -/
inductive Instr where
  | busRdCart (a : Addr)
  | busRdStub (a : Addr)
  | busRdEram (a : Addr)
  | busRdWram (a : Addr)
  | busRdEcho (a : Addr)
  | busRdHram (a : Addr)
  | busRdIe
  | busWrCart (a : Addr) (v : Byte)
  | busWrStub (a : Addr) (v : Byte)
  | busWrEram (a : Addr) (v : Byte)
  | busWrWram (a : Addr) (v : Byte)
  | busWrEcho (a : Addr) (v : Byte)
  | busWrHram (a : Addr) (v : Byte)
  | busWrIe (v : Byte)
  | cartRdRom0 (a : Addr)
  | cartRdRomx (a : Addr)
  | cartRdOor (a : Addr)
  | cartRdEram (a : Addr)
  | cartWrRomlo (a : Addr) (v : Byte)
  | cartWrBank (a : Addr) (v : Byte)
  | cartWrRomx (a : Addr) (v : Byte)
  | cartWrOor (a : Addr) (v : Byte)
  | cartWrEram (a : Addr) (v : Byte)
  | hostHdr (rom : Image)
  | hostLoad (rom : Image)
  | hostAttach (ram : RamInit)
  | hostDispose
  | hostRomsize
  deriving DecidableEq, Repr

/-- The instruction's mnemonic, letter for letter as spec/opcode_table.json has it (R96). -/
def Instr.mnemonic : Instr → String
  | .busRdCart _ => "BUS.RD.CART"
  | .busRdStub _ => "BUS.RD.STUB"
  | .busRdEram _ => "BUS.RD.ERAM"
  | .busRdWram _ => "BUS.RD.WRAM"
  | .busRdEcho _ => "BUS.RD.ECHO"
  | .busRdHram _ => "BUS.RD.HRAM"
  | .busRdIe => "BUS.RD.IE"
  | .busWrCart _ _ => "BUS.WR.CART"
  | .busWrStub _ _ => "BUS.WR.STUB"
  | .busWrEram _ _ => "BUS.WR.ERAM"
  | .busWrWram _ _ => "BUS.WR.WRAM"
  | .busWrEcho _ _ => "BUS.WR.ECHO"
  | .busWrHram _ _ => "BUS.WR.HRAM"
  | .busWrIe _ => "BUS.WR.IE"
  | .cartRdRom0 _ => "CART.RD.ROM0"
  | .cartRdRomx _ => "CART.RD.ROMX"
  | .cartRdOor _ => "CART.RD.OOR"
  | .cartRdEram _ => "CART.RD.ERAM"
  | .cartWrRomlo _ _ => "CART.WR.ROMLO"
  | .cartWrBank _ _ => "CART.WR.BANK"
  | .cartWrRomx _ _ => "CART.WR.ROMX"
  | .cartWrOor _ _ => "CART.WR.OOR"
  | .cartWrEram _ _ => "CART.WR.ERAM"
  | .hostHdr _ => "HOST.HDR"
  | .hostLoad _ => "HOST.LOAD"
  | .hostAttach _ => "HOST.ATTACH"
  | .hostDispose => "HOST.DISPOSE"
  | .hostRomsize => "HOST.ROMSIZE"

end Sys2Proof
end

