-- ==== Sys2Proof/WellFormed.lean ====
section
/-! DEFINITION. When a transaction is well formed: its address lies in its mnemonic's range, as
the table of spec/30_encoding.md R96 gives the ranges in addresses (the decoder works on address
bits, R82 and R83, so the two are written from different tables). -/

namespace Sys2Proof

/-- `a` lies in the closed range `lo`–`hi` (R7). -/
def inRange (lo hi : Nat) (a : Addr) : Bool := decide (lo ≤ a.toNat) && decide (a.toNat ≤ hi)

/-- The address ranges of R96, one line for each mnemonic. The operands of the HOST operations
have no range: every byte sequence is an operand of HOST.HDR and HOST.LOAD (a short one faults,
R111), and every draw one of HOST.ATTACH. -/
def Instr.wf : Instr → Bool
  | .busRdCart a => inRange 0x0000 0x7FFF a
  | .busRdStub a => inRange 0x8000 0x9FFF a || inRange 0xFE00 0xFF7F a
  | .busRdEram a => inRange 0xA000 0xBFFF a
  | .busRdWram a => inRange 0xC000 0xDFFF a
  | .busRdEcho a => inRange 0xE000 0xFDFF a
  | .busRdHram a => inRange 0xFF80 0xFFFE a
  | .busRdIe => true
  | .busWrCart a _ => inRange 0x0000 0x7FFF a
  | .busWrStub a _ => inRange 0x8000 0x9FFF a || inRange 0xFE00 0xFF7F a
  | .busWrEram a _ => inRange 0xA000 0xBFFF a
  | .busWrWram a _ => inRange 0xC000 0xDFFF a
  | .busWrEcho a _ => inRange 0xE000 0xFDFF a
  | .busWrHram a _ => inRange 0xFF80 0xFFFE a
  | .busWrIe _ => true
  | .cartRdRom0 a => inRange 0x0000 0x3FFF a
  | .cartRdRomx a => inRange 0x4000 0x7FFF a
  | .cartRdOor a => inRange 0x8000 0x9FFF a || inRange 0xC000 0xFFFF a
  | .cartRdEram a => inRange 0xA000 0xBFFF a
  | .cartWrRomlo a _ => inRange 0x0000 0x1FFF a
  | .cartWrBank a _ => inRange 0x2000 0x3FFF a
  | .cartWrRomx a _ => inRange 0x4000 0x7FFF a
  | .cartWrOor a _ => inRange 0x8000 0x9FFF a || inRange 0xC000 0xFFFF a
  | .cartWrEram a _ => inRange 0xA000 0xBFFF a
  | .hostHdr _ => true
  | .hostLoad _ => true
  | .hostAttach _ => true
  | .hostDispose => true
  | .hostRomsize => true

end Sys2Proof
end

