-- ==== Sys2Proof/Decode.lean ====
section
/-! DEFINITION. The decoder of transaction words (spec/30_encoding.md R80 to R83), total on every
word and rejecting the reserved selectors by name; after it the encoder, the opcode table of R96 as
data, and the reading of a word numbered as spec/opcode_table.json numbers it. -/

namespace Sys2Proof

/-- `v[hi:lo]`, "inclusive, as an unsigned number" (R7). -/
def slice (hi lo : Nat) {n : Nat} (v : BitVec n) : Nat := v.toNat / 2 ^ lo % 2 ^ (hi - lo + 1)

/-! ### Address decode (R82, R83) -/

/-- The regions of the bus router (R82). -/
inductive BusRegion where
  | cart | stub | eram | wram | echo | hram | ie
  deriving DecidableEq, Repr

/-- The router's region is a function of the address alone, as a tree on its bits (R82, R177). -/
def busRegion (a : Addr) : BusRegion :=
  if slice 15 15 a = 0 then .cart
  else if slice 15 13 a = 0b100 then .stub
  else if slice 15 13 a = 0b101 then .eram
  else if slice 15 13 a = 0b110 then .wram
  else if slice 12 9 a ≠ 0b1111 then .echo
  else if slice 8 7 a ≠ 0b11 then .stub
  else if slice 6 0 a ≠ 0b1111111 then .hram
  else .ie

/-- The regions of a cartridge-port read (R83). -/
inductive CartReadRegion where
  | rom0 | romx | eram | oor
  deriving DecidableEq, Repr

/-- Cartridge-port read decode (R83). -/
def cartReadRegion (a : Addr) : CartReadRegion :=
  if slice 15 14 a = 0b00 then .rom0
  else if slice 15 14 a = 0b01 then .romx
  else if slice 15 13 a = 0b101 then .eram
  else .oor

/-- The regions of a cartridge-port write (R83). -/
inductive CartWriteRegion where
  | romlo | bank | romx | eram | oor
  deriving DecidableEq, Repr

/-- Cartridge-port write decode: "reads and writes decode differently in 0x0000–0x3FFF" (R83). -/
def cartWriteRegion (a : Addr) : CartWriteRegion :=
  if slice 15 13 a = 0b000 then .romlo
  else if slice 15 13 a = 0b001 then .bank
  else if slice 15 14 a = 0b01 then .romx
  else if slice 15 13 a = 0b101 then .eram
  else .oor

/-! ### The decoder (R80, R81) -/

/-- What a decoder reads: the transaction word with its operands. Only `word` selects the
instruction: "`data` is an operand, not part of the decode" (R80). `rom` is the byte sequence of
HOST.HDR and HOST.LOAD, `ram` the draw of HOST.ATTACH. -/
structure Packet where
  word : TxnWord
  data : Byte
  rom  : Image
  ram  : RamInit
  deriving DecidableEq, Repr

/-- The image of no bytes. -/
def Image.empty : Image := ⟨0, []⟩

/-- The draw in which every byte is `Config.unlistedByte`. -/
def RamInit.blank : RamInit := ⟨[], [], Config.unlistedByte⟩

/-- A word with no operand beside it: every operand is zeros. -/
def Packet.ofWord (w : TxnWord) : Packet := ⟨w, 0, Image.empty, RamInit.blank⟩

/-- Why a word is no transaction: its selector is one of the reserved 0x9 to 0xF (R81, R92). -/
inductive DecodeError where
  | reservedSelector (sel : Sel)
  deriving DecidableEq, Repr

/-- `sel = TW[19:16]` (R80). -/
def wordSel (w : TxnWord) : Sel := BitVec.ofNat 4 (slice 19 16 w)

/-- `addr = TW[15:0]` (R80). -/
def wordAddr (w : TxnWord) : Addr := BitVec.ofNat 16 (slice 15 0 w)

/-- BUS.RD, one mnemonic for each region (R82). -/
def decodeBusRead (a : Addr) : Instr :=
  match busRegion a with
  | .cart => .busRdCart a
  | .stub => .busRdStub a
  | .eram => .busRdEram a
  | .wram => .busRdWram a
  | .echo => .busRdEcho a
  | .hram => .busRdHram a
  | .ie => .busRdIe

/-- BUS.WR, one mnemonic for each region (R82). -/
def decodeBusWrite (a : Addr) (v : Byte) : Instr :=
  match busRegion a with
  | .cart => .busWrCart a v
  | .stub => .busWrStub a v
  | .eram => .busWrEram a v
  | .wram => .busWrWram a v
  | .echo => .busWrEcho a v
  | .hram => .busWrHram a v
  | .ie => .busWrIe v

/-- CART.RD, one mnemonic for each region (R83). -/
def decodeCartRead (a : Addr) : Instr :=
  match cartReadRegion a with
  | .rom0 => .cartRdRom0 a
  | .romx => .cartRdRomx a
  | .eram => .cartRdEram a
  | .oor => .cartRdOor a

/-- CART.WR, one mnemonic for each region (R83). -/
def decodeCartWrite (a : Addr) (v : Byte) : Instr :=
  match cartWriteRegion a with
  | .romlo => .cartWrRomlo a v
  | .bank => .cartWrBank a v
  | .romx => .cartWrRomx a v
  | .eram => .cartWrEram a v
  | .oor => .cartWrOor a v

/-- The decoder: the selectors of R81. The address bits of a HOST word are ignored (R80). -/
def decode (p : Packet) : Except DecodeError Instr :=
  match slice 19 16 p.word with
  | 0x0 => .ok (decodeBusRead (wordAddr p.word))
  | 0x1 => .ok (decodeBusWrite (wordAddr p.word) p.data)
  | 0x2 => .ok (decodeCartRead (wordAddr p.word))
  | 0x3 => .ok (decodeCartWrite (wordAddr p.word) p.data)
  | 0x4 => .ok (.hostHdr p.rom)
  | 0x5 => .ok (.hostLoad p.rom)
  | 0x6 => .ok (.hostAttach p.ram)
  | 0x7 => .ok .hostDispose
  | 0x8 => .ok .hostRomsize
  | _ => .error (.reservedSelector (wordSel p.word))

/-! ### The encoder -/

/-- `TW = {sel[3:0], addr[15:0]}` (R80), `{a, b}` being concatenation with `a` high (R7). -/
def makeWord (sel : Nat) (a : Addr) : TxnWord := BitVec.ofNat 20 (sel * 0x10000 + a.toNat)

/-- The packet of an operation that reads at an address. -/
def readPacket (sel : Nat) (a : Addr) : Packet := Packet.ofWord (makeWord sel a)

/-- The packet of an operation that writes `v` at an address. -/
def writePacket (sel : Nat) (a : Addr) (v : Byte) : Packet :=
  { Packet.ofWord (makeWord sel a) with data := v }

/-- The packet of a HOST operation: the address bits, which it ignores, are zeros (R94). -/
def hostPacket (sel : Nat) : Packet := Packet.ofWord (makeWord sel 0)

/-- The transaction word and operands of an instruction (R80, R81, R94). -/
def encode : Instr → Packet
  | .busRdCart a => readPacket 0x0 a
  | .busRdStub a => readPacket 0x0 a
  | .busRdEram a => readPacket 0x0 a
  | .busRdWram a => readPacket 0x0 a
  | .busRdEcho a => readPacket 0x0 a
  | .busRdHram a => readPacket 0x0 a
  | .busRdIe => readPacket 0x0 0xFFFF
  | .busWrCart a v => writePacket 0x1 a v
  | .busWrStub a v => writePacket 0x1 a v
  | .busWrEram a v => writePacket 0x1 a v
  | .busWrWram a v => writePacket 0x1 a v
  | .busWrEcho a v => writePacket 0x1 a v
  | .busWrHram a v => writePacket 0x1 a v
  | .busWrIe v => writePacket 0x1 0xFFFF v
  | .cartRdRom0 a => readPacket 0x2 a
  | .cartRdRomx a => readPacket 0x2 a
  | .cartRdOor a => readPacket 0x2 a
  | .cartRdEram a => readPacket 0x2 a
  | .cartWrRomlo a v => writePacket 0x3 a v
  | .cartWrBank a v => writePacket 0x3 a v
  | .cartWrRomx a v => writePacket 0x3 a v
  | .cartWrOor a v => writePacket 0x3 a v
  | .cartWrEram a v => writePacket 0x3 a v
  | .hostHdr rom => { hostPacket 0x4 with rom := rom }
  | .hostLoad rom => { hostPacket 0x5 with rom := rom }
  | .hostAttach ram => { hostPacket 0x6 with ram := ram }
  | .hostDispose => hostPacket 0x7
  | .hostRomsize => hostPacket 0x8

/-! ### The opcode table (R96) -/

/-- One row of spec/opcode_table.json: a word `w` selects it when `w & mask = value` (R96). -/
structure OpcodeRow where
  mnemonic : String
  value    : TxnWord
  mask     : TxnWord
  deriving DecidableEq, Repr

/-- The row's test (R96). -/
def OpcodeRow.selects (r : OpcodeRow) (w : TxnWord) : Bool := w &&& r.mask == r.value

/-- The 18 rows of BUS.RD. -/
def busReadRows : List OpcodeRow :=
  [⟨"BUS.RD.CART", 0x00000, 0xF8000⟩, ⟨"BUS.RD.STUB", 0x08000, 0xFE000⟩,
   ⟨"BUS.RD.ERAM", 0x0A000, 0xFE000⟩, ⟨"BUS.RD.WRAM", 0x0C000, 0xFE000⟩,
   ⟨"BUS.RD.ECHO", 0x0E000, 0xFF000⟩, ⟨"BUS.RD.ECHO", 0x0F000, 0xFF800⟩,
   ⟨"BUS.RD.ECHO", 0x0F800, 0xFFC00⟩, ⟨"BUS.RD.ECHO", 0x0FC00, 0xFFE00⟩,
   ⟨"BUS.RD.STUB", 0x0FE00, 0xFFF00⟩, ⟨"BUS.RD.STUB", 0x0FF00, 0xFFF80⟩,
   ⟨"BUS.RD.HRAM", 0x0FF80, 0xFFFC0⟩, ⟨"BUS.RD.HRAM", 0x0FFC0, 0xFFFE0⟩,
   ⟨"BUS.RD.HRAM", 0x0FFE0, 0xFFFF0⟩, ⟨"BUS.RD.HRAM", 0x0FFF0, 0xFFFF8⟩,
   ⟨"BUS.RD.HRAM", 0x0FFF8, 0xFFFFC⟩, ⟨"BUS.RD.HRAM", 0x0FFFC, 0xFFFFE⟩,
   ⟨"BUS.RD.HRAM", 0x0FFFE, 0xFFFFF⟩, ⟨"BUS.RD.IE", 0x0FFFF, 0xFFFFF⟩]

/-- The 18 rows of BUS.WR. -/
def busWriteRows : List OpcodeRow :=
  [⟨"BUS.WR.CART", 0x10000, 0xF8000⟩, ⟨"BUS.WR.STUB", 0x18000, 0xFE000⟩,
   ⟨"BUS.WR.ERAM", 0x1A000, 0xFE000⟩, ⟨"BUS.WR.WRAM", 0x1C000, 0xFE000⟩,
   ⟨"BUS.WR.ECHO", 0x1E000, 0xFF000⟩, ⟨"BUS.WR.ECHO", 0x1F000, 0xFF800⟩,
   ⟨"BUS.WR.ECHO", 0x1F800, 0xFFC00⟩, ⟨"BUS.WR.ECHO", 0x1FC00, 0xFFE00⟩,
   ⟨"BUS.WR.STUB", 0x1FE00, 0xFFF00⟩, ⟨"BUS.WR.STUB", 0x1FF00, 0xFFF80⟩,
   ⟨"BUS.WR.HRAM", 0x1FF80, 0xFFFC0⟩, ⟨"BUS.WR.HRAM", 0x1FFC0, 0xFFFE0⟩,
   ⟨"BUS.WR.HRAM", 0x1FFE0, 0xFFFF0⟩, ⟨"BUS.WR.HRAM", 0x1FFF0, 0xFFFF8⟩,
   ⟨"BUS.WR.HRAM", 0x1FFF8, 0xFFFFC⟩, ⟨"BUS.WR.HRAM", 0x1FFFC, 0xFFFFE⟩,
   ⟨"BUS.WR.HRAM", 0x1FFFE, 0xFFFFF⟩, ⟨"BUS.WR.IE", 0x1FFFF, 0xFFFFF⟩]

/-- The rows of CART.RD and CART.WR. -/
def cartRows : List OpcodeRow :=
  [⟨"CART.RD.ROM0", 0x20000, 0xFC000⟩, ⟨"CART.RD.ROMX", 0x24000, 0xFC000⟩,
   ⟨"CART.RD.OOR", 0x28000, 0xFE000⟩, ⟨"CART.RD.ERAM", 0x2A000, 0xFE000⟩,
   ⟨"CART.RD.OOR", 0x2C000, 0xFC000⟩, ⟨"CART.WR.ROMLO", 0x30000, 0xFE000⟩,
   ⟨"CART.WR.BANK", 0x32000, 0xFE000⟩, ⟨"CART.WR.ROMX", 0x34000, 0xFC000⟩,
   ⟨"CART.WR.OOR", 0x38000, 0xFE000⟩, ⟨"CART.WR.ERAM", 0x3A000, 0xFE000⟩,
   ⟨"CART.WR.OOR", 0x3C000, 0xFC000⟩]

/-- The rows of the HOST operations. -/
def hostRows : List OpcodeRow :=
  [⟨"HOST.HDR", 0x40000, 0xF0000⟩, ⟨"HOST.LOAD", 0x50000, 0xF0000⟩,
   ⟨"HOST.ATTACH", 0x60000, 0xF0000⟩, ⟨"HOST.DISPOSE", 0x70000, 0xF0000⟩,
   ⟨"HOST.ROMSIZE", 0x80000, 0xF0000⟩]

/-- spec/opcode_table.json, row for row and in its order. -/
def opcodeTable : List OpcodeRow := busReadRows ++ busWriteRows ++ cartRows ++ hostRows

/-! ### Words numbered as the opcode table numbers them -/

/-- The packet of an instruction whose bits are `w`: the transaction word is bits 19 to 0 and every
operand is zeros. A number with a bit above 19 is no transaction word; it is given the reserved
selector 0xF, which the decoder rejects. -/
def tablePacket (w : Nat) : Packet :=
  Packet.ofWord (if w < 2 ^ 20 then BitVec.ofNat 20 w else 0xF0000)

/-- The instruction the decoder reads from the word `w`, numbered as spec/opcode_table.json numbers
it; there is one word length, 20 bits, so `nbits` changes nothing (R80). -/
def decodeTableWord (_nbits w : Nat) : Option Instr :=
  match decode (tablePacket w) with
  | .ok i => some i
  | .error _ => none

end Sys2Proof
end

