-- ==== Sys2Proof/Machine/State.lean ====
section
/-! DEFINITION. The state of the block (spec/10_state.md R20), the model's own interface fields
beside it, the outcomes of a transaction (spec/00_scope.md R10), and the state after reset (R37). -/

namespace Sys2Proof.Machine

/-! ### Transaction outcomes -/

/-- The four fault kinds (spec/60_exceptions.md R190). -/
inductive FaultKind where
  | malformedInput
  | outOfRange
  | invalidOperation
  | typeMismatch
  deriving DecidableEq, Repr

/-- The causes of the fault sites F1 to F10 (R192); `Cause.text` gives the texts. -/
inductive Cause where
  | romTooShort
  | unknownCartType
  | unknownRomSize
  | unknownRamSize
  | address
  | cartridgeDisposed
  | writeToRom
  | outOfCartRange
  deriving DecidableEq, Repr

/-- `Fault(kind, cause)` (R10, R190). -/
structure FaultRecord where
  kind  : FaultKind
  cause : Cause
  deriving DecidableEq, Repr

/-- The header record `HDR` (R22): "derived, not stored separately — computed once at construction".
`romBanks` is `N`. -/
structure Header where
  title            : List Byte
  type             : CartType
  romBanks         : BankCount
  ramBanks         : Nat
  cgbFlag          : Byte
  sgbFlag          : Byte
  headerChecksumOK : Bool
  deriving DecidableEq, Repr

/-- How a transaction ended (R10): `Ok`, `Ok(v)` with a byte, a size or a header record, or
`Fault(kind, cause)`, handed to the caller. -/
inductive Response where
  | ok
  | byte (v : Byte)
  | size (n : Nat)
  | header (h : Header)
  | fault (f : FaultRecord)
  deriving DecidableEq, Repr

/-! ### The block -/

/-- The lifecycle tag `LIFE` (R25). `HDR` stands under `loaded` because it has a meaning only there:
after HOST.DISPOSE its contents are unspecified and reads of it are given no meaning (R22,
92_eei_decisions.md D19; log 5). -/
inductive Life where
  | loaded (hdr : Header)
  | disposed
  deriving DecidableEq, Repr

/-- What the Cartridge owns (R36): `ROM` with its length `L` (`rom.size`), `BANK`, `LIFE`, `HDR`. -/
structure Cartridge where
  rom  : Image
  bank : BitVec 5
  life : Life
  deriving DecidableEq, Repr

/-- What the Memory Bus owns (R36): `WRAM` (indexes below 0x2000), `HRAM` (below 0x7F), `IE`. -/
structure Bus where
  wram : Memory
  hram : Memory
  ie   : Byte
  deriving DecidableEq, Repr

/-! ### Transactions waiting to be served -/

/-- What a caller gives as an address: the contracts validate that it "is an integer in
`[0, 0xFFFF]`" (R93), so it may be any integer, or no integer at all. -/
inductive AddrArg where
  | int (z : Int)
  | nonInteger
  deriving DecidableEq, Repr

/-- One transaction as an agent (R11) issues it at the software boundary of R93: the selector, the
address argument, the write value (masked to 8 bits, never refused, R90), the byte sequence of
HOST.HDR and HOST.LOAD, and the RAM draw a HOST.ATTACH makes. -/
structure Request where
  sel  : Sel
  addr : AddrArg
  data : Nat
  rom  : Image
  ram  : RamInit
  deriving DecidableEq, Repr

/-- The complete state of the block (R20: `ROM`, `HDR`, `BANK`, `LIFE` in `cart`; `WRAM`, `HRAM`,
`IE` in `bus`), with the model's own fields: the configuration `params` (R34), the single stream
of transactions the agents have issued and the block has not yet served, oldest first (R61,
92_eei_decisions.md D21), and the outcome the latest transaction handed to its caller (R10).
`cart = none` is "(no cartridge)" of R146; `bus = none` is before HOST.ATTACH (R160). -/
structure State where
  params   : Params
  cart     : Option Cartridge
  bus      : Option Bus
  pending  : List Request
  response : Option Response
  deriving DecidableEq, Repr

/-! ### How a step can stop -/

/-- The faults that stop the machine: NONE. Every fault of the spec is a transaction outcome handed
to the caller, after which the block "accepts the next transaction normally" (R199, R200), so it
is a next state whose `response` is `Response.fault`. Safe: nobody raises one. -/
inductive Fault where
  deriving DecidableEq, Repr

/-- What the model gives no meaning, by name. -/
inductive Refusal where
  /-- An instruction that has no meaning yet: raised by an arm of `exec` alone (there is none). Safe. -/
  | notModelled (mnemonic : String)
  /-- Raised by CART.RD, CART.WR, HOST.ATTACH, HOST.DISPOSE, HOST.ROMSIZE, and BUS accesses that are
  forwarded, when no HOST.LOAD has succeeded: "no later transaction is defined until a HOST.LOAD
  succeeds" (R130; 92_eei_decisions.md D18; 93_implementation_defined.md U15: `refuse`). Safe. -/
  | noCartridge
  /-- Raised by BUS.RD and BUS.WR before HOST.ATTACH: they "are defined only after HOST.ATTACH"
  (R160; 93_implementation_defined.md U15: `refuse`). Safe. -/
  | noBus
  /-- Raised by the step for a word whose selector is 0x9 to 0xF: "no operation; a model refuses such
  a word" (R81; 93_implementation_defined.md U11: `refuse`). Safe. -/
  | reservedSelector (sel : Sel)
  deriving DecidableEq, Repr

/-! ### Reset -/

/-- The ROM image of the reset state: the shortest legal image, every byte 0x00. The spec supplies
no image ("none: supplied at load", R6). DESIGN CHOICE (log 1), unsafe. -/
def resetImage : Image := ⟨Config.hdrMin, []⟩

/-- What the header decoder gives for `resetImage` under the default parameters (R110): the empty
title, codes 0x00, and the checksum 0xE8 against the stored 0x00. -/
def resetHeader : Header where
  title := []
  type := .romOnly
  romBanks := ⟨2, by decide⟩
  ramBanks := 0
  cgbFlag := 0x00
  sgbFlag := 0x00
  headerChecksumOK := false

/-- The machine right after reset, which is HOST.LOAD then HOST.ATTACH (R37, R220): `BANK` = 1 and
`LIFE` = `Loaded` as the spec states. `WRAM`, `HRAM` and `IE` are the draw `RamInit`, which the
spec leaves arbitrary: here every byte 0x00. DESIGN CHOICE (log 2), unsafe. No transaction waits
and none has been answered. -/
def State.reset : State where
  params := Config.defaults
  cart := some { rom := resetImage, bank := Config.bankReset, life := .loaded resetHeader }
  bus := some { wram := [], hram := [], ie := Config.unlistedByte }
  pending := []
  response := none

end Sys2Proof.Machine
end

