-- ==== Sys2Proof/Machine/Ops.lean ====
section
/-! DEFINITION. The named operations every meaning is written over: byte stores, the ROM image, the
access to the cartridge and the bus, the delivery of a transaction's outcome, and TAKING A FAULT
(spec/60_exceptions.md R199). -/

namespace Sys2Proof

/-! ### Byte stores -/

/-- The byte a store holds at `a`. -/
def Memory.read : Memory → Nat → Byte
  | [], _ => Config.unlistedByte
  | (b, w) :: t, a => if b = a then w else Memory.read t a

/-- The listing without the pair that names `a`. -/
def Memory.erase : Memory → Nat → Memory
  | [], _ => []
  | (b, w) :: t, a => if b = a then t else (b, w) :: Memory.erase t a

/-- The listing with the pair `(a, v)` in its place. -/
def Memory.insert : Memory → Nat → Byte → Memory
  | [], a, v => [(a, v)]
  | (b, w) :: t, a, v =>
    if a < b then (a, v) :: (b, w) :: t
    else if a = b then (a, v) :: t
    else (b, w) :: Memory.insert t a v

/-- Storing `v` at `a`. Storing what an unlisted index reads as takes the pair out, so that equal
stores are equal listings. -/
def Memory.write (m : Memory) (a : Nat) (v : Byte) : Memory :=
  if v = Config.unlistedByte then m.erase a else m.insert a v

/-- The pairs have rising indexes from `lo` up, all below `n`, and no byte an unlisted index reads as. -/
def Memory.wfFrom (n : Nat) : Nat → Memory → Bool
  | _, [] => true
  | lo, (a, v) :: t =>
    decide (lo ≤ a) && decide (a < n) && decide (v ≠ Config.unlistedByte) && Memory.wfFrom n (a + 1) t

/-- The canonical form of a store of `n` bytes. -/
def Memory.wf (n : Nat) (m : Memory) : Bool := Memory.wfFrom n 0 m

/-- The canonical form of any listing, cut to the indexes below `n`; where two pairs name one
index the first counts, as it does for `Memory.read`. -/
def Memory.ofCells (n : Nat) : List Host.Cell → Memory
  | [] => []
  | (a, v) :: t => if a < n then (Memory.ofCells n t).write a v else Memory.ofCells n t

/-! ### The ROM image -/

/-- `RomByte(i)`: "`ROM[i]` if `i < L`, else `0xFF`. This is the only way rules read the ROM store
after load" (R8, R57). -/
def Image.byte (im : Image) (i : Nat) : Byte :=
  if i < im.size then im.cells.read i else Config.openBus

/-- The image with its bytes listed in canonical form; the bytes and the length are the same. -/
def Image.normal (im : Image) : Image := ⟨im.size, Memory.ofCells im.size im.cells⟩

namespace Machine

/-! ### The updates of a state -/

/-- The outcome the latest transaction handed to its caller becomes `r`. -/
def State.setResponse (s : State) (r : Response) : State := { s with response := some r }

/-- The cartridge becomes `c`; `none` is no cartridge. -/
def State.setCart (s : State) (c : Option Cartridge) : State := { s with cart := c }

/-- The bus-owned stores become `b`; `none` is no bus. -/
def State.setBus (s : State) (b : Option Bus) : State := { s with bus := b }

/-- The transactions waiting become `q`. -/
def State.setPending (s : State) (q : List Request) : State := { s with pending := q }

/-! ### Delivering an outcome, taking a fault, going on after one -/

/-- The transaction ends and hands `r` to its caller (R10). -/
def respond (r : Response) (s : State) : Host.Outcome State Fault Refusal :=
  .next (s.setResponse r)

/-- TAKING A FAULT, the one way any transaction raises one (R199): "the transaction that raises it
assigns no state element ..., no state is saved anywhere, no mode or mask changes, and control
goes nowhere inside the block"; the fault is handed to the caller. RETURNING from one needs no
operation: "There is no return instruction and nothing to restore" (R200); the next step serves the
next transaction from the state this leaves. -/
def raise (f : FaultRecord) (s : State) : Host.Outcome State Fault Refusal :=
  respond (.fault f) s

/-- A read's outcome: `Ok(v)`, or the fault it raised. A read assigns no state (R56 (c)). -/
def finishRead (r : Except FaultRecord Byte) (s : State) : Host.Outcome State Fault Refusal :=
  match r with
  | .ok v => respond (.byte v) s
  | .error f => raise f s

/-- A cartridge write's outcome: the cartridge it leaves and `Ok`, or the fault it raised. -/
def finishCartWrite (r : Except FaultRecord Cartridge) (s : State) :
    Host.Outcome State Fault Refusal :=
  match r with
  | .ok c => respond .ok (s.setCart (some c))
  | .error f => raise f s

/-- A bus-owned store's write: the stores it leaves and `Ok`. -/
def finishBusWrite (b : Bus) (s : State) : Host.Outcome State Fault Refusal :=
  respond .ok (s.setBus (some b))

/-- The cartridge, which exists once a HOST.LOAD has succeeded (R130, R146). -/
def withCart (s : State) (k : Cartridge → Host.Outcome State Fault Refusal) :
    Host.Outcome State Fault Refusal :=
  match s.cart with
  | some c => k c
  | none => .refused .noCartridge

/-- The bus, which exists once HOST.ATTACH has created it (R160). -/
def withBus (s : State) (k : Bus → Host.Outcome State Fault Refusal) :
    Host.Outcome State Fault Refusal :=
  match s.bus with
  | some b => k b
  | none => .refused .noBus

/-! ### The lifecycle prelude of the cartridge port -/

/-- Step (2) of `CartRead`: in `Disposed` every read raises `OutOfRange` (R135, F7). -/
def guardRead (c : Cartridge) (k : Header → Except FaultRecord Byte) : Except FaultRecord Byte :=
  match c.life with
  | .loaded h => k h
  | .disposed => .error ⟨.outOfRange, .cartridgeDisposed⟩

/-- Step (2) of `CartWrite`: in `Disposed` every write raises `InvalidOperation` (R140, F8). -/
def guardWrite (c : Cartridge) (k : Header → Except FaultRecord Cartridge) :
    Except FaultRecord Cartridge :=
  match c.life with
  | .loaded h => k h
  | .disposed => .error ⟨.invalidOperation, .cartridgeDisposed⟩

/-! ### Names and numbers of the faults -/

/-- The optional numeric codes (R191). -/
def faultCode : FaultKind → Nat
  | .malformedInput => 1
  | .outOfRange => 2
  | .invalidOperation => 3
  | .typeMismatch => 4

/-- The cause texts (R192). -/
def causeText : Cause → String
  | .romTooShort => "ROM too short"
  | .unknownCartType => "unknown cartridge type"
  | .unknownRomSize => "unknown ROM size"
  | .unknownRamSize => "unknown RAM size"
  | .address => "address"
  | .cartridgeDisposed => "cartridge disposed"
  | .writeToRom => "write to ROM not allowed"
  | .outOfCartRange => "out of cartridge range"

/-! ### Metadata outputs -/

/-- The read-only metadata a loaded cartridge exposes, "constant since load" (R133); with no
cartridge or a disposed one the fields have no meaning (92_eei_decisions.md D19: refuse). The
record is `HDR`, which R133 keeps whole. -/
def metadata (s : State) : Option Header :=
  match s.cart with
  | some { life := .loaded h, .. } => some h
  | _ => none

end Machine

end Sys2Proof
end

