-- ==== Sys2Proof/Machine/Operands.lean ====
section
/-! DEFINITION. Operand forms (spec/30_encoding.md R84 to R90, R93): the index each region makes of
an address, the data of a write, and the address and data validation of the software boundary. -/

namespace Sys2Proof.Machine

/-- Fixed-window ROM index: `zext(addr[13:0])` (R84). -/
def fixedIndex (a : Addr) : Nat := slice 13 0 a

/-- The effective bank of the switchable window (spec/41_cartridge_port.md R134): coerced to 1 if 0,
taken modulo the bank count, coerced to 1 again if 0 and there is more than one bank. -/
def effBank (bank : BitVec 5) (n : BankCount) : Nat :=
  let b0 := bank.toNat % 0x20
  let b1 := if b0 = 0 then 1 else b0
  let b2 := b1 % n.val
  if b2 = 0 ∧ 1 < n.val then 1 else b2

/-- Switchable-window ROM index: `e*0x4000 + (addr - 0x4000)`, which is `{e[4:0], addr[13:0]}`
(R85), computed without wrap-around (R9 (c)). -/
def windowIndex (e : Nat) (a : Addr) : Nat := e * Config.bankSize + slice 13 0 a

/-- Work-RAM index, and the echo index into the same store: `addr[12:0]` (R86, R87). -/
def wramIndex (a : Addr) : Nat := slice 12 0 a

/-- The echo index: "index = `addr - 0xE000` into the **same** work RAM store" (R87). -/
def echoIndex (a : Addr) : Nat := slice 12 0 a

/-- High-RAM index: `addr[6:0]` (R88). -/
def hramIndex (a : Addr) : Nat := slice 6 0 a

/-- The control write's data: bits 4 to 0 are the bank, bits 7 to 5 are ignored (R89). -/
def bankField (v : Byte) : BitVec 5 := BitVec.ofNat 5 (slice 4 0 v)

/-- `write8` "masks `value` to 8 bits before storing" (R90): a wide value is never refused. -/
def maskData (value : Nat) : Byte := BitVec.ofNat 8 (value % 0x100)

/-- The address check at the entry of every addressed operation: a non-integer raises
`TypeMismatch`, an integer outside `[0, 0xFFFF]` raises `OutOfRange` (R93, R161; F5, F6). -/
def checkAddress : AddrArg → Except FaultRecord Addr
  | .nonInteger => .error ⟨.typeMismatch, .address⟩
  | .int z => if 0 ≤ z ∧ z ≤ 0xFFFF then .ok (BitVec.ofNat 16 z.toNat) else .error ⟨.outOfRange, .address⟩

end Sys2Proof.Machine
end

