-- ==== Sys2Proof/Machine/Flags.lean ====
section
/-! DEFINITION. The flags. The block has no condition codes, and no operation sets a status flag
(spec/10_state.md R31); its three static indications are computed once, from the header bytes
(spec/40_header_decoder.md R113, R114, R118). -/

namespace Sys2Proof.Machine

/-- The header checksum after `k` bytes from 0x134 up: "`checksum = (checksum - byte - 1) mod 256`,
starting from 0" (R118); a byte's arithmetic is the remainder by 256. -/
def checksumAfter (im : Image) : Nat → Byte
  | 0 => 0
  | k + 1 => checksumAfter im k - im.byte (0x134 + k) - 1

/-- `Checksum(rom)`, over the bytes 0x134 to `HdrCkLast` (R118). -/
def checksum (p : Params) (im : Image) : Byte := checksumAfter im p.hdrCkLast.count

/-- `headerChecksumOK`: the computed checksum is the stored byte 0x14D (R118). -/
def headerChecksumOK (p : Params) (im : Image) : Bool := decide (checksum p im = im.byte 0x14D)

/-- `cgbFlag`: byte 0x143, raw (R113). -/
def cgbFlag (im : Image) : Byte := im.byte 0x143

/-- `sgbFlag`: the byte at `SgbFlagOffset`, raw (R114). -/
def sgbFlag (p : Params) (im : Image) : Byte := im.byte p.sgbFlagOffset.val

end Sys2Proof.Machine
end

