-- ==== Sys2Proof/Machine/Header.lean ====
section
/-! DEFINITION. The header decoder, spec/40_header_decoder.md R110 to R119, and the meaning of
HOST.HDR. -/

namespace Sys2Proof.Machine

/-- What a header table holds for a code; `none` is an unknown code (R115 to R117). -/
def lookupCode {α : Type} : List (Byte × α) → Byte → Option α
  | [], _ => none
  | (k, x) :: t, b => if k = b then some x else lookupCode t b

/-- The title's length limit: 11 if bit 7 of byte 0x143 is set, else 16 (R112). -/
def titleLimit (im : Image) : Nat := if slice 7 7 (cgbFlag im) = 1 then 11 else 16

/-- At most `n` bytes from index `i` up, "stopping at the first zero byte" (R112). -/
def titleScan (im : Image) : Nat → Nat → List Byte
  | _, 0 => []
  | i, n + 1 => if im.byte i = 0 then [] else im.byte i :: titleScan im (i + 1) n

/-- The list without its trailing bytes that lie in `ws`; leading ones stay (R112). -/
def trimEnd (ws : List Byte) : List Byte → List Byte
  | [] => []
  | b :: t =>
    match trimEnd ws t with
    | [] => if b ∈ ws then [] else [b]
    | c :: u => b :: c :: u

/-- `Title(rom)` (R112), as the byte string itself (92_eei_decisions.md D15). -/
def title (p : Params) (im : Image) : List Byte := trimEnd p.titleWs (titleScan im 0x134 (titleLimit im))

/-- `HOST.HDR(rom)` (R110): the length first, then the three look-ups in the order 0x147, 0x148,
0x149 (R119). A bad checksum is a flag and no fault. -/
def parseHeader (p : Params) (im : Image) : Except FaultRecord Header :=
  if im.size < Config.hdrMin then .error ⟨.malformedInput, .romTooShort⟩
  else match lookupCode p.cartTypeTable.val (im.byte 0x147) with
    | none => .error ⟨.malformedInput, .unknownCartType⟩
    | some ty => match lookupCode p.romSizeTable (im.byte 0x148) with
      | none => .error ⟨.malformedInput, .unknownRomSize⟩
      | some n => match lookupCode p.ramSizeTable (im.byte 0x149) with
        | none => .error ⟨.malformedInput, .unknownRamSize⟩
        | some r => .ok {
            title := title p im
            type := ty
            romBanks := n
            ramBanks := r
            cgbFlag := cgbFlag im
            sgbFlag := sgbFlag p im
            headerChecksumOK := headerChecksumOK p im }

/-- HOST.HDR (R110): "It reads no state of the block and writes none", so it needs no cartridge. -/
def execHostHdr (rom : Image) (s : State) : Host.Outcome State Fault Refusal :=
  match parseHeader s.params rom with
  | .ok h => respond (.header h) s
  | .error f => raise f s

end Sys2Proof.Machine
end

