-- ==== Sys2Proof/Machine/Cart.lean ====
section
/-! DEFINITION. The cartridge, spec/41_cartridge_port.md: HOST.LOAD, HOST.DISPOSE, HOST.ROMSIZE, the
rule of each cartridge-port region, and `CartRead` and `CartWrite` over them. -/

namespace Sys2Proof.Machine

/-! ### Host operations -/

/-- HOST.LOAD (R130). A success makes "a new, unrelated block" (92_eei_decisions.md D18): the new
cartridge, and no bus until HOST.ATTACH. On a fault "no cartridge exists", and "no later transaction
is defined until a HOST.LOAD succeeds" (R130, R200; log 4). -/
def execHostLoad (rom : Image) (s : State) : Host.Outcome State Fault Refusal :=
  match parseHeader s.params rom with
  | .ok h =>
    respond .ok ((s.setCart (some
      { rom := rom.normal, bank := Config.bankReset, life := .loaded h })).setBus none)
  | .error f => raise f ((s.setCart none).setBus none)

/-- HOST.DISPOSE (R131): `ROM` empty, `BANK` 1, `LIFE` `Disposed`; the bus's stores are untouched.
A second one "performs the same three assignments and so changes nothing". -/
def execHostDispose (s : State) : Host.Outcome State Fault Refusal :=
  withCart s fun _ =>
    respond .ok (s.setCart (some
      { rom := Image.empty, bank := Config.bankReset, life := .disposed }))

/-- HOST.ROMSIZE (R132): `return L`, in either lifecycle state. -/
def execHostRomsize (s : State) : Host.Outcome State Fault Refusal :=
  withCart s fun c => respond (.size c.rom.size) s

/-! ### The rule of each region, in a loaded cartridge -/

/-- R136: `RomByte(addr)`, bank 0. -/
def readRom0 (c : Cartridge) (a : Addr) : Byte := c.rom.byte (fixedIndex a)

/-- R137: `RomByte` at the effective bank. -/
def readRomx (c : Cartridge) (h : Header) (a : Addr) : Byte :=
  c.rom.byte (windowIndex (effBank c.bank h.romBanks) a)

/-- R142: `BANK <- v & 0x1F`, "no other effect". -/
def writeBank (c : Cartridge) (v : Byte) : Cartridge := { c with bank := bankField v }

/-- The fault of R141 and R143 (F9). -/
def romWriteFault : FaultRecord := ⟨.invalidOperation, .writeToRom⟩

/-- The fault of R139 and R145 (F10). -/
def outOfCartFault : FaultRecord := ⟨.outOfRange, .outOfCartRange⟩

/-- `CartRead(addr)` (R135): the lifecycle, then the region. -/
def cartRead (c : Cartridge) (a : Addr) : Except FaultRecord Byte :=
  guardRead c fun h =>
    match cartReadRegion a with
    | .rom0 => .ok (readRom0 c a)
    | .romx => .ok (readRomx c h a)
    | .eram => .ok Config.openBus
    | .oor => .error outOfCartFault

/-- `CartWrite(addr, v)` (R140): the lifecycle, then the region. -/
def cartWrite (c : Cartridge) (a : Addr) (v : Byte) : Except FaultRecord Cartridge :=
  guardWrite c fun _ =>
    match cartWriteRegion a with
    | .romlo => .error romWriteFault
    | .bank => .ok (writeBank c v)
    | .romx => .error romWriteFault
    | .eram => .ok c
    | .oor => .error outOfCartFault

/-! ### Cartridge-port reads -/

/-- CART.RD.ROM0 (R136). -/
def execCartRdRom0 (a : Addr) (s : State) : Host.Outcome State Fault Refusal :=
  withCart s fun c => finishRead (guardRead c fun _ => .ok (readRom0 c a)) s

/-- CART.RD.ROMX (R137). -/
def execCartRdRomx (a : Addr) (s : State) : Host.Outcome State Fault Refusal :=
  withCart s fun c => finishRead (guardRead c fun h => .ok (readRomx c h a)) s

/-- CART.RD.ERAM (R138): "always returns `0xFF`", whatever was written and whatever `ramBanks` says. -/
def execCartRdEram (_a : Addr) (s : State) : Host.Outcome State Fault Refusal :=
  withCart s fun c => finishRead (guardRead c fun _ => .ok Config.openBus) s

/-- CART.RD.OOR (R139): always the fault; in `Disposed` the prelude's comes first. -/
def execCartRdOor (_a : Addr) (s : State) : Host.Outcome State Fault Refusal :=
  withCart s fun c => finishRead (guardRead c fun _ => .error outOfCartFault) s

/-! ### Cartridge-port writes -/

/-- CART.WR.ROMLO (R141): always the fault, whatever the value. -/
def execCartWrRomlo (_a : Addr) (_v : Byte) (s : State) : Host.Outcome State Fault Refusal :=
  withCart s fun c => finishCartWrite (guardWrite c fun _ => .error romWriteFault) s

/-- CART.WR.BANK (R142): the control write; `addr[12:0]` and `v[7:5]` are ignored. -/
def execCartWrBank (_a : Addr) (v : Byte) (s : State) : Host.Outcome State Fault Refusal :=
  withCart s fun c => finishCartWrite (guardWrite c fun _ => .ok (writeBank c v)) s

/-- CART.WR.ROMX (R143): always the fault, whatever the value. -/
def execCartWrRomx (_a : Addr) (_v : Byte) (s : State) : Host.Outcome State Fault Refusal :=
  withCart s fun c => finishCartWrite (guardWrite c fun _ => .error romWriteFault) s

/-- CART.WR.ERAM (R144): "a silent no-op". -/
def execCartWrEram (_a : Addr) (_v : Byte) (s : State) : Host.Outcome State Fault Refusal :=
  withCart s fun c => finishCartWrite (guardWrite c fun _ => .ok c) s

/-- CART.WR.OOR (R145): always the fault; in `Disposed` the prelude's comes first. -/
def execCartWrOor (_a : Addr) (_v : Byte) (s : State) : Host.Outcome State Fault Refusal :=
  withCart s fun c => finishCartWrite (guardWrite c fun _ => .error outOfCartFault) s

end Sys2Proof.Machine
end

