-- ==== Sys2Proof/Machine/Bus.lean ====
section
/-! DEFINITION. The memory bus, spec/42_memory_bus.md: HOST.ATTACH and the rule of each bus region.
A BUS transaction is defined once the bus exists (R160); the forwarded ones take the cartridge
port's outcome unchanged (R163). -/

namespace Sys2Proof.Machine

/-- HOST.ATTACH (R160): it creates the three stores from the draw `RamInit` and "reads and writes
nothing of the cartridge", which must exist. -/
def execHostAttach (ram : RamInit) (s : State) : Host.Outcome State Fault Refusal :=
  withCart s fun _ =>
    finishBusWrite
      { wram := Memory.ofCells Config.wramSize ram.wram0
        hram := Memory.ofCells Config.hramSize ram.hram0
        ie := ram.ie0 } s

/-! ### Bus reads -/

/-- BUS.RD.CART (R162): `return CartRead(addr)`. -/
def execBusRdCart (a : Addr) (s : State) : Host.Outcome State Fault Refusal :=
  withBus s fun _ => withCart s fun c => finishRead (cartRead c a) s

/-- BUS.RD.ERAM (R164): forwarded to the cartridge (90_conflicts.md C2). -/
def execBusRdEram (a : Addr) (s : State) : Host.Outcome State Fault Refusal :=
  withBus s fun _ => withCart s fun c => finishRead (cartRead c a) s

/-- BUS.RD.WRAM (R165): `WRAM[addr - 0xC000]`. -/
def execBusRdWram (a : Addr) (s : State) : Host.Outcome State Fault Refusal :=
  withBus s fun b => respond (.byte (b.wram.read (wramIndex a))) s

/-- BUS.RD.ECHO (R166): `WRAM[addr - 0xE000]`, "the **same** work RAM store". -/
def execBusRdEcho (a : Addr) (s : State) : Host.Outcome State Fault Refusal :=
  withBus s fun b => respond (.byte (b.wram.read (echoIndex a))) s

/-- BUS.RD.HRAM (R167): `HRAM[addr - 0xFF80]`. -/
def execBusRdHram (a : Addr) (s : State) : Host.Outcome State Fault Refusal :=
  withBus s fun b => respond (.byte (b.hram.read (hramIndex a))) s

/-- BUS.RD.IE (R168): `return IE`, all 8 bits; the read clears nothing. -/
def execBusRdIe (s : State) : Host.Outcome State Fault Refusal :=
  withBus s fun b => respond (.byte b.ie) s

/-- BUS.RD.STUB (R169): `return 0xFF`, in either lifecycle state. -/
def execBusRdStub (_a : Addr) (s : State) : Host.Outcome State Fault Refusal :=
  withBus s fun _ => respond (.byte Config.openBus) s

/-! ### Bus writes -/

/-- BUS.WR.CART (R170): `CartWrite(addr, v8)`. -/
def execBusWrCart (a : Addr) (v : Byte) (s : State) : Host.Outcome State Fault Refusal :=
  withBus s fun _ => withCart s fun c => finishCartWrite (cartWrite c a v) s

/-- BUS.WR.ERAM (R171): forwarded to the cartridge (90_conflicts.md C2). -/
def execBusWrEram (a : Addr) (v : Byte) (s : State) : Host.Outcome State Fault Refusal :=
  withBus s fun _ => withCart s fun c => finishCartWrite (cartWrite c a v) s

/-- BUS.WR.WRAM (R172): `WRAM[addr - 0xC000] <- v8`. -/
def execBusWrWram (a : Addr) (v : Byte) (s : State) : Host.Outcome State Fault Refusal :=
  withBus s fun b => finishBusWrite { b with wram := b.wram.write (wramIndex a) v } s

/-- BUS.WR.ECHO (R173): `WRAM[addr - 0xE000] <- v8`, "identical backing bytes, not a copy". -/
def execBusWrEcho (a : Addr) (v : Byte) (s : State) : Host.Outcome State Fault Refusal :=
  withBus s fun b => finishBusWrite { b with wram := b.wram.write (echoIndex a) v } s

/-- BUS.WR.HRAM (R174): `HRAM[addr - 0xFF80] <- v8`. -/
def execBusWrHram (a : Addr) (v : Byte) (s : State) : Host.Outcome State Fault Refusal :=
  withBus s fun b => finishBusWrite { b with hram := b.hram.write (hramIndex a) v } s

/-- BUS.WR.IE (R175): `IE <- v8`, all 8 bits, with no other effect in the block. -/
def execBusWrIe (v : Byte) (s : State) : Host.Outcome State Fault Refusal :=
  withBus s fun b => finishBusWrite { b with ie := v } s

/-- BUS.WR.STUB (R176): nothing; `Ok`. -/
def execBusWrStub (_a : Addr) (_v : Byte) (s : State) : Host.Outcome State Fault Refusal :=
  withBus s fun _ => respond .ok s

end Sys2Proof.Machine
end

