-- ==== Sys2Proof/Machine/Request.lean ====
section
/-! DEFINITION. Accepting a request: the entry checks of the contracts, before anything else
(spec/30_encoding.md R93, spec/60_exceptions.md R198), and the forming of the transaction word. -/

namespace Sys2Proof.Machine

/-- The request that presents a packet exactly: its word's selector and address, its operands. -/
def requestOf (p : Packet) : Request where
  sel := wordSel p.word
  addr := .int (slice 15 0 p.word : Nat)
  data := p.data.toNat
  rom := p.rom
  ram := p.ram

/-- The packet of a request whose address has been checked to be `a` (R80, R90). -/
def packetAt (r : Request) (a : Addr) : Packet where
  word := makeWord r.sel.toNat a
  data := maskData r.data
  rom := r.rom
  ram := r.ram

/-- What accepting a request gives: an instruction to run, a fault raised at the entry, or no
transaction at all. -/
inductive Accepted where
  | instr (i : Instr)
  | raised (f : FaultRecord)
  | refused (r : Refusal)
  deriving DecidableEq, Repr

/-- The decoder's answer, a reserved selector refused by name (R81). -/
def acceptPacket (p : Packet) : Accepted :=
  match decode p with
  | .ok i => .instr i
  | .error (.reservedSelector x) => .refused (.reservedSelector x)

/-- An addressed operation on a component that exists: address type, then address range (R198),
then the decoder. -/
def acceptAddressed (r : Request) : Accepted :=
  match checkAddress r.addr with
  | .ok a => acceptPacket (packetAt r a)
  | .error f => .raised f

/-- Accepting a request. BUS operations (0x0, 0x1) are the bus's and CART operations (0x2, 0x3) the
cartridge's own, so with neither there is nothing that checks the address (93_implementation_defined.md
U15); the HOST operations ignore the address (R80). -/
def accept (r : Request) (s : State) : Accepted :=
  if r.sel.toNat < 2 then
    match s.bus with
    | some _ => acceptAddressed r
    | none => .refused .noBus
  else if r.sel.toNat < 4 then
    match s.cart with
    | some _ => acceptAddressed r
    | none => .refused .noCartridge
  else acceptPacket (packetAt r 0)

end Sys2Proof.Machine
end

