-- ==== Sys2Proof/Machine/Dispatch.lean ====
section
/-! DEFINITION. One arm for each constructor of `Instr`: its meaning. -/

namespace Sys2Proof.Machine

-- Every arm calls its own meaning; none is rejected by name.
def exec (i : Instr) (s : State) : Host.Outcome State Fault Refusal :=
  match i with
  | .busRdCart a => Sys2Proof.Machine.execBusRdCart a s
  | .busRdStub a => Sys2Proof.Machine.execBusRdStub a s
  | .busRdEram a => Sys2Proof.Machine.execBusRdEram a s
  | .busRdWram a => Sys2Proof.Machine.execBusRdWram a s
  | .busRdEcho a => Sys2Proof.Machine.execBusRdEcho a s
  | .busRdHram a => Sys2Proof.Machine.execBusRdHram a s
  | .busRdIe => Sys2Proof.Machine.execBusRdIe s
  | .busWrCart a v => Sys2Proof.Machine.execBusWrCart a v s
  | .busWrStub a v => Sys2Proof.Machine.execBusWrStub a v s
  | .busWrEram a v => Sys2Proof.Machine.execBusWrEram a v s
  | .busWrWram a v => Sys2Proof.Machine.execBusWrWram a v s
  | .busWrEcho a v => Sys2Proof.Machine.execBusWrEcho a v s
  | .busWrHram a v => Sys2Proof.Machine.execBusWrHram a v s
  | .busWrIe v => Sys2Proof.Machine.execBusWrIe v s
  | .cartRdRom0 a => Sys2Proof.Machine.execCartRdRom0 a s
  | .cartRdRomx a => Sys2Proof.Machine.execCartRdRomx a s
  | .cartRdOor a => Sys2Proof.Machine.execCartRdOor a s
  | .cartRdEram a => Sys2Proof.Machine.execCartRdEram a s
  | .cartWrRomlo a v => Sys2Proof.Machine.execCartWrRomlo a v s
  | .cartWrBank a v => Sys2Proof.Machine.execCartWrBank a v s
  | .cartWrRomx a v => Sys2Proof.Machine.execCartWrRomx a v s
  | .cartWrOor a v => Sys2Proof.Machine.execCartWrOor a v s
  | .cartWrEram a v => Sys2Proof.Machine.execCartWrEram a v s
  | .hostHdr rom => Sys2Proof.Machine.execHostHdr rom s
  | .hostLoad rom => Sys2Proof.Machine.execHostLoad rom s
  | .hostAttach ram => Sys2Proof.Machine.execHostAttach ram s
  | .hostDispose => Sys2Proof.Machine.execHostDispose s
  | .hostRomsize => Sys2Proof.Machine.execHostRomsize s

end Sys2Proof.Machine
end

