-- ==== Sys2Proof/Machine/Step.lean ====
section
/-! DEFINITION. One step: the block serves the oldest transaction waiting (spec/20_memory.md R61).
It has no program counter (spec/10_state.md R30): a program is the sequence of transactions the
agents issue, and `withFetchWord` issues one. -/

namespace Sys2Proof.Machine

/-- Serving one request, already taken off the stream: run the instruction, or take the fault its
entry check raised. -/
def serve (r : Request) (s : State) : Host.Outcome State Fault Refusal :=
  match accept r s with
  | .instr i => exec i s
  | .raised f => raise f s
  | .refused x => .refused x

/-- One step. With no transaction waiting nothing happens: the block "never takes a step of its
own" (R11) and "never halts by itself" (R228; log 6). -/
def step (s : State) : Host.Outcome State Fault Refusal :=
  match s.pending with
  | [] => .next s
  | r :: rest => serve r (s.setPending rest)

/-- `s` with the transaction of word `w` issued, to be served by the very next step; its operands
(the data byte, the byte sequence, the RAM draw) are zeros. -/
def State.withFetchWord (s : State) (_nbits w : Nat) : State :=
  s.setPending (requestOf (tablePacket w) :: s.pending)

end Sys2Proof.Machine
end

