-- ==== Sys2Proof/Safety.lean ====
section
/-! DEFINITION. The terms the statements use: the invariant of the block, the address maps of
spec/20_memory.md R51 and R52 in addresses (the machine decodes address bits), the fault sites of
spec/60_exceptions.md R192, and the views two states are compared by. -/

namespace Sys2Proof.Machine

/-! ### The invariant of the block -/

/-- What holds at reset and after every step: the stores are in canonical form and of their sizes
(R21, R26, R27); `HDR` is what the header decoder gives for `ROM` (R22); a disposed cartridge has
an empty `ROM` and `BANK` 1 (R131); a bus has a cartridge (R36, R160). -/
structure BlockInv (s : State) : Prop where
  romCanonical : ∀ c, s.cart = some c → Memory.wf c.rom.size c.rom.cells = true
  headerOfRom : ∀ c h, s.cart = some c → c.life = .loaded h → parseHeader s.params c.rom = .ok h
  disposedEmpty : ∀ c, s.cart = some c → c.life = .disposed →
    c.rom = Image.empty ∧ c.bank = Config.bankReset
  busCanonical : ∀ b, s.bus = some b →
    Memory.wf Config.wramSize b.wram = true ∧ Memory.wf Config.hramSize b.hram = true
  busHasCart : s.bus ≠ none → s.cart ≠ none

/-! ### The address maps, in addresses -/

/-- The cartridge-port read map (R52, R53), with the lifecycle of R135. -/
def portMapRead (c : Cartridge) (a : Nat) : Except FaultRecord Byte :=
  match c.life with
  | .disposed => .error ⟨.outOfRange, .cartridgeDisposed⟩
  | .loaded h =>
    if a ≤ 0x3FFF then .ok (c.rom.byte a)
    else if a ≤ 0x7FFF then .ok (c.rom.byte (effBank c.bank h.romBanks * 0x4000 + (a - 0x4000)))
    else if 0xA000 ≤ a ∧ a ≤ 0xBFFF then .ok 0xFF
    else .error ⟨.outOfRange, .outOfCartRange⟩

/-- The cartridge-port write map (R52), with the lifecycle of R140. -/
def portMapWrite (c : Cartridge) (a : Nat) (v : Byte) : Except FaultRecord Cartridge :=
  match c.life with
  | .disposed => .error ⟨.invalidOperation, .cartridgeDisposed⟩
  | .loaded _ =>
    if a ≤ 0x1FFF then .error ⟨.invalidOperation, .writeToRom⟩
    else if a ≤ 0x3FFF then .ok { c with bank := BitVec.ofNat 5 (v.toNat % 0x20) }
    else if a ≤ 0x7FFF then .error ⟨.invalidOperation, .writeToRom⟩
    else if 0xA000 ≤ a ∧ a ≤ 0xBFFF then .ok c
    else .error ⟨.outOfRange, .outOfCartRange⟩

/-- The bus read map (R51). -/
def busMapRead (c : Cartridge) (b : Bus) (a : Nat) : Except FaultRecord Byte :=
  if a ≤ 0x7FFF then portMapRead c a
  else if a ≤ 0x9FFF then .ok 0xFF
  else if a ≤ 0xBFFF then portMapRead c a
  else if a ≤ 0xDFFF then .ok (b.wram.read (a - 0xC000))
  else if a ≤ 0xFDFF then .ok (b.wram.read (a - 0xE000))
  else if a ≤ 0xFF7F then .ok 0xFF
  else if a ≤ 0xFFFE then .ok (b.hram.read (a - 0xFF80))
  else .ok b.ie

/-- The bus write map (R51): the cartridge and the stores a write leaves, or its fault. -/
def busMapWrite (c : Cartridge) (b : Bus) (a : Nat) (v : Byte) :
    Except FaultRecord (Cartridge × Bus) :=
  if a ≤ 0x7FFF then (portMapWrite c a v).map fun c' => (c', b)
  else if a ≤ 0x9FFF then .ok (c, b)
  else if a ≤ 0xBFFF then (portMapWrite c a v).map fun c' => (c', b)
  else if a ≤ 0xDFFF then .ok (c, { b with wram := b.wram.write (a - 0xC000) v })
  else if a ≤ 0xFDFF then .ok (c, { b with wram := b.wram.write (a - 0xE000) v })
  else if a ≤ 0xFF7F then .ok (c, b)
  else if a ≤ 0xFFFE then .ok (c, { b with hram := b.hram.write (a - 0xFF80) v })
  else .ok (c, { b with ie := v })

/-- The outcome a read hands to its caller (R10). -/
def readResponse : Except FaultRecord Byte → Response
  | .ok v => .byte v
  | .error f => .fault f

/-! ### Requests by what they do -/

/-- A request of BUS.RD at `a` (R94, `RD a`). -/
def busRead (a : Addr) : Request := requestOf (readPacket 0x0 a)

/-- A request of BUS.WR of `v` at `a` (R94, `WR a, v`). -/
def busWrite (a : Addr) (v : Byte) : Request := requestOf (writePacket 0x1 a v)

/-- One byte of the bus-owned stores. -/
inductive StoreByte where
  | wram (i : Nat)
  | hram (i : Nat)
  | ie
  deriving DecidableEq, Repr

/-- The byte of the bus-owned stores that bus address `a` names (R51, R58), if any. -/
def storeAt (a : Nat) : Option StoreByte :=
  if 0xC000 ≤ a ∧ a ≤ 0xDFFF then some (.wram (a - 0xC000))
  else if 0xE000 ≤ a ∧ a ≤ 0xFDFF then some (.wram (a - 0xE000))
  else if 0xFF80 ≤ a ∧ a ≤ 0xFFFE then some (.hram (a - 0xFF80))
  else if a = 0xFFFF then some .ie
  else none

/-- The byte of the bus-owned stores a request stores to: only a BUS.WR (selector 0x1) whose address
is an integer that names one. -/
def storesTo (r : Request) : Option StoreByte :=
  match r.addr with
  | .int z => if r.sel = 0x1 ∧ 0 ≤ z then storeAt z.toNat else none
  | .nonInteger => none

/-- What a bus holds at a byte of its stores. -/
def Bus.at (b : Bus) : StoreByte → Byte
  | .wram i => b.wram.read i
  | .hram i => b.hram.read i
  | .ie => b.ie

/-- What the block holds at a byte of the bus-owned stores; `none` before HOST.ATTACH. -/
def storeByte (s : State) (x : StoreByte) : Option Byte := s.bus.map fun b => b.at x

/-- The instructions that read and assign nothing (R56 (c), R110, R132). -/
def Reads : Instr → Bool
  | .busRdCart _ | .busRdStub _ | .busRdEram _ | .busRdWram _ | .busRdEcho _ | .busRdHram _
  | .busRdIe | .cartRdRom0 _ | .cartRdRomx _ | .cartRdOor _ | .cartRdEram _ | .hostHdr _
  | .hostRomsize => true
  | .busWrCart _ _ | .busWrStub _ _ | .busWrEram _ _ | .busWrWram _ _ | .busWrEcho _ _
  | .busWrHram _ _ | .busWrIe _ | .cartWrRomlo _ _ | .cartWrBank _ _ | .cartWrRomx _ _
  | .cartWrOor _ _ | .cartWrEram _ _ | .hostLoad _ | .hostAttach _ | .hostDispose => false

/-- The writes of a byte (R81, selectors 0x1 and 0x3). -/
def Writes : Instr → Bool
  | .busWrCart _ _ | .busWrStub _ _ | .busWrEram _ _ | .busWrWram _ _ | .busWrEcho _ _
  | .busWrHram _ _ | .busWrIe _ | .cartWrRomlo _ _ | .cartWrBank _ _ | .cartWrRomx _ _
  | .cartWrOor _ _ | .cartWrEram _ _ => true
  | .busRdCart _ | .busRdStub _ | .busRdEram _ | .busRdWram _ | .busRdEcho _ | .busRdHram _
  | .busRdIe | .cartRdRom0 _ | .cartRdRomx _ | .cartRdOor _ | .cartRdEram _ | .hostHdr _
  | .hostRomsize | .hostLoad _ | .hostAttach _ | .hostDispose => false

/-- The state's block and configuration, without the interface fields: what two outcomes are
compared by when only the response and the stream may differ. -/
def blockOf (s : State) : Params × Option Cartridge × Option Bus := (s.params, s.cart, s.bus)

/-! ### The fault sites (R192) -/

/-- The cartridge of a state is disposed. -/
def IsDisposed (s : State) : Prop := ∃ c, s.cart = some c ∧ c.life = .disposed

/-- The cartridge of a state is loaded. -/
def IsLoaded (s : State) : Prop := ∃ c h, s.cart = some c ∧ c.life = .loaded h

/-- Rows F1 to F4: HOST.HDR and HOST.LOAD on an image that the decoder refuses. -/
def HeaderFault (p : Params) (im : Image) (f : FaultRecord) : Prop :=
  f.kind = .malformedInput ∧
  ((f.cause = .romTooShort ∧ im.size < 0x150) ∨
   (f.cause = .unknownCartType ∧ lookupCode p.cartTypeTable.val (im.byte 0x147) = none) ∨
   (f.cause = .unknownRomSize ∧ lookupCode p.romSizeTable (im.byte 0x148) = none) ∨
   (f.cause = .unknownRamSize ∧ lookupCode p.ramSizeTable (im.byte 0x149) = none))

/-- Row F7 for a read that reaches the cartridge. -/
def DisposedReadFault (s : State) (f : FaultRecord) : Prop :=
  IsDisposed s ∧ f = ⟨.outOfRange, .cartridgeDisposed⟩

/-- Row F8 for a write that reaches the cartridge. -/
def DisposedWriteFault (s : State) (f : FaultRecord) : Prop :=
  IsDisposed s ∧ f = ⟨.invalidOperation, .cartridgeDisposed⟩

/-- Row F9. -/
def RomWriteFault (s : State) (f : FaultRecord) : Prop :=
  IsLoaded s ∧ f = ⟨.invalidOperation, .writeToRom⟩

/-- Row F10. -/
def OutOfCartFault (s : State) (f : FaultRecord) : Prop :=
  IsLoaded s ∧ f = ⟨.outOfRange, .outOfCartRange⟩

/-- The table R192 read by instruction: the faults `i` may raise in `s`, with their conditions (F5
and F6 are raised before there is an instruction). -/
def FaultSite (i : Instr) (s : State) (f : FaultRecord) : Prop :=
  match i with
  | .hostHdr im => HeaderFault s.params im f
  | .hostLoad im => HeaderFault s.params im f
  | .busRdCart _ => DisposedReadFault s f
  | .busRdEram _ => DisposedReadFault s f
  | .cartRdRom0 _ => DisposedReadFault s f
  | .cartRdRomx _ => DisposedReadFault s f
  | .cartRdEram _ => DisposedReadFault s f
  | .cartRdOor _ => DisposedReadFault s f ∨ OutOfCartFault s f
  | .busWrCart a _ => DisposedWriteFault s f ∨
      (RomWriteFault s f ∧ (a.toNat ≤ 0x1FFF ∨ (0x4000 ≤ a.toNat ∧ a.toNat ≤ 0x7FFF)))
  | .busWrEram _ _ => DisposedWriteFault s f
  | .cartWrRomlo _ _ => DisposedWriteFault s f ∨ RomWriteFault s f
  | .cartWrBank _ _ => DisposedWriteFault s f
  | .cartWrRomx _ _ => DisposedWriteFault s f ∨ RomWriteFault s f
  | .cartWrEram _ _ => DisposedWriteFault s f
  | .cartWrOor _ _ => DisposedWriteFault s f ∨ OutOfCartFault s f
  | .busRdStub _ | .busRdWram _ | .busRdEcho _ | .busRdHram _ | .busRdIe | .busWrStub _ _
  | .busWrWram _ _ | .busWrEcho _ _ | .busWrHram _ _ | .busWrIe _ | .hostAttach _ | .hostDispose
  | .hostRomsize => False

/-! ### Views that forget part of a state -/

/-- A header of which only `N` is kept (R22: "Of these only `N` influences any bus transaction"). -/
def Header.onlyBanks (h : Header) : Header :=
  { title := [], type := .romOnly, romBanks := h.romBanks, ramBanks := 0,
    cgbFlag := 0, sgbFlag := 0, headerChecksumOK := false }

/-- The lifecycle with only `N` of the header kept. -/
def Life.onlyBanks : Life → Life
  | .loaded h => .loaded h.onlyBanks
  | .disposed => .disposed

/-- The state with every metadata field but `N` forgotten. -/
def forgetMetadata (s : State) : State :=
  { s with cart := s.cart.map fun c => { c with life := c.life.onlyBanks } }

/-- Two images of at least 0x150 bytes that agree on the header bytes of R91 (and on the byte at
`SgbFlagOffset` and, where `HdrCkLast` is 0x14C, on that byte). -/
def AgreeOnHeader (p : Params) (x y : Image) : Prop :=
  0x150 ≤ x.size ∧ 0x150 ≤ y.size ∧
  (∀ i, 0x134 ≤ i → i ≤ 0x14B → x.byte i = y.byte i) ∧
  (p.hdrCkLast = .through14C → x.byte 0x14C = y.byte 0x14C) ∧
  x.byte p.sgbFlagOffset.val = y.byte p.sgbFlagOffset.val ∧
  x.byte 0x14D = y.byte 0x14D

end Sys2Proof.Machine
end

