-- ==== Sys2Proof/Certificates/Slice0/Obligations.lean ====
section
/-! DEFINITION. The statements for the provers, each with the rule of the spec it formalises. Where a
statement writes its next state as an update of the state before, every field the update does not
name is unchanged: that is the instruction's frame. -/

open Sys2Proof Sys2Proof.Machine

/-! ### Encoding -/

/-- 30_encoding.md R80 to R83: words written out from the bit patterns decode to the transactions
they stand for (sanity, on fixed words). -/
def Obligations.SampleWordsDecode : Prop :=
  decode (Packet.ofWord 0x03FFF) = .ok (.busRdCart 0x3FFF) ∧
  decode (Packet.ofWord 0x0FEA0) = .ok (.busRdStub 0xFEA0) ∧
  decode (Packet.ofWord 0x0FDFF) = .ok (.busRdEcho 0xFDFF) ∧
  decode { Packet.ofWord 0x12000 with data := 0xE3 } = .ok (.busWrCart 0x2000 0xE3) ∧
  decode { Packet.ofWord 0x1FFFF with data := 0xE5 } = .ok (.busWrIe 0xE5) ∧
  decode (Packet.ofWord 0x24000) = .ok (.cartRdRomx 0x4000) ∧
  decode { Packet.ofWord 0x33FFF with data := 0x01 } = .ok (.cartWrBank 0x3FFF 0x01) ∧
  decode (Packet.ofWord 0x7ABCD) = .ok .hostDispose ∧
  decode (Packet.ofWord 0x90000) = .error (.reservedSelector 0x9)

/-- 30_encoding.md R80 to R83: every well-formed transaction's packet decodes to it, with every
operand (no bit of an encoding is dropped). -/
def Obligations.EncodedTransactionDecodesToItself : Prop :=
  ∀ i : Instr, i.wf = true → decode (encode i) = .ok i

/-- 30_encoding.md R80 to R83: what the decoder accepts is well formed (its address lies in its
mnemonic's range of R96), and encoding it gives the word back, the address bits of a HOST word being
ignored and so zeros, and a write's data byte. -/
def Obligations.DecodedTransactionIsWellFormedAndKeepsItsWord : Prop :=
  ∀ (p : Packet) (i : Instr), decode p = .ok i →
    i.wf = true ∧
    (encode i).word = (if slice 19 16 p.word < 4 then p.word else makeWord (slice 19 16 p.word) 0) ∧
    (Writes i = true → (encode i).data = p.data)

/-- 30_encoding.md R96: the rows of the opcode table are pairwise disjoint and cover exactly the words
whose selector is at most 0x8; a word that selects a row decodes to a transaction of the row's
mnemonic, and every transaction the decoder gives has such a row. -/
def Obligations.OpcodeTableAgreesWithTheDecoder : Prop :=
  opcodeTable.Pairwise (fun r r' => ∀ w, ¬(r.selects w = true ∧ r'.selects w = true)) ∧
  (∀ w : TxnWord, (∃ r ∈ opcodeTable, r.selects w = true) ↔ slice 19 16 w ≤ 0x8) ∧
  ∀ p : Packet,
    (∀ r ∈ opcodeTable, r.selects p.word = true → ∃ i, decode p = .ok i ∧ i.mnemonic = r.mnemonic) ∧
    (∀ i, decode p = .ok i → ∃ r ∈ opcodeTable, r.selects p.word = true ∧ r.mnemonic = i.mnemonic)

/-! ### The step -/

/-- 20_memory.md R61, 30_encoding.md R80: when the oldest waiting request presents a packet that
decodes to `i`, the step takes it off the stream and is `exec i` on what remains. -/
def Obligations.StepRunsTheDecodedTransaction : Prop :=
  ∀ (s : State) (p : Packet) (i : Instr) (rest : List Request),
    s.pending = requestOf p :: rest → decode p = .ok i →
    step s = exec i { s with pending := rest }

/-- 30_encoding.md R81, R92: a reserved selector names no operation and is refused, by name. -/
def Obligations.ReservedSelectorIsRefused : Prop :=
  ∀ (s : State) (r : Request) (rest : List Request),
    s.pending = r :: rest → 0x9 ≤ r.sel.toNat → step s = .refused (.reservedSelector r.sel)

/-- A word placed by `withFetchWord` is the very next transaction: the step runs what the decoder
reads from it (log 7). -/
def Obligations.PlacedWordIsServedNext : Prop :=
  ∀ (s : State) (nbits w : Nat) (i : Instr),
    decodeTableWord nbits w = some i → step (s.withFetchWord nbits w) = exec i s

/-- 30_encoding.md R93: an integer outside `[0, 0xFFFF]` raises `OutOfRange` and a non-integer
`TypeMismatch`, before any other check, for BUS.RD, BUS.WR, CART.RD and CART.WR alike, and nothing
of the block changes. -/
def Obligations.BadAddressArgumentFaults : Prop :=
  ∀ (s : State) (r : Request) (rest : List Request),
    s.pending = r :: rest → r.sel.toNat < 4 →
    (r.sel.toNat < 2 → s.bus ≠ none) → (2 ≤ r.sel.toNat → s.cart ≠ none) →
    (r.addr = .nonInteger →
      step s = .next { s with
        pending := rest, response := some (.fault ⟨.typeMismatch, .address⟩) }) ∧
    (∀ z, r.addr = .int z → (z < 0 ∨ 0xFFFF < z) →
      step s = .next { s with
        pending := rest, response := some (.fault ⟨.outOfRange, .address⟩) })

/-- 20_memory.md R51 (reads), 42_memory_bus.md R161: a BUS.RD at any address, taken through the
request, the bit-field decode and the instruction, answers what the address map gives, and changes
nothing else. The kind `OutOfRange` of the disposed rows is the spec's own decision (D10, C4; log 20), and
that external RAM faults after disposal follows from who answers it (D9, C2; log 19). -/
def Obligations.BusReadFollowsAddressMap : Prop :=
  ∀ (s : State) (c : Cartridge) (b : Bus) (r : Request) (rest : List Request) (z : Nat),
    s.cart = some c → s.bus = some b → s.pending = r :: rest →
    r.sel = 0x0 → r.addr = .int z → z ≤ 0xFFFF →
    step s = .next { s with pending := rest, response := some (readResponse (busMapRead c b z)) }

/-- 20_memory.md R51 (writes), 42_memory_bus.md R161, 30_encoding.md R90: a BUS.WR at any address, of
any value (masked to 8 bits first), leaves the cartridge and the stores the address map gives, or
raises its fault and changes nothing. The kind `InvalidOperation` of the disposed rows is the spec's own
decision (D10, U1; log 20), and that external RAM faults after disposal follows from who answers it (D9,
C2; log 19). -/
def Obligations.BusWriteFollowsAddressMap : Prop :=
  ∀ (s : State) (c : Cartridge) (b : Bus) (r : Request) (rest : List Request) (z : Nat),
    s.cart = some c → s.bus = some b → s.pending = r :: rest →
    r.sel = 0x1 → r.addr = .int z → z ≤ 0xFFFF →
    step s =
      match busMapWrite c b z (BitVec.ofNat 8 (r.data % 0x100)) with
      | .ok (c', b') =>
        .next { s with
          cart := some c', bus := some b', pending := rest, response := some .ok }
      | .error f => .next { s with pending := rest, response := some (.fault f) }

/-- 20_memory.md R52: the cartridge-port address map, for CART.RD and CART.WR at any address and in
either lifecycle state. The kinds of the disposed rows, `OutOfRange` for a read and `InvalidOperation`
for a write, are the spec's own decision (D10, C4, U1; log 20), and so is the lifecycle's coming before
the region (D11; log 12). -/
def Obligations.CartridgePortFollowsAddressMap : Prop :=
  ∀ (s : State) (c : Cartridge) (r : Request) (rest : List Request) (z : Nat),
    s.cart = some c → s.pending = r :: rest → r.addr = .int z → z ≤ 0xFFFF →
    (r.sel = 0x2 →
      step s = .next { s with pending := rest, response := some (readResponse (portMapRead c z)) }) ∧
    (r.sel = 0x3 →
      step s =
        match portMapWrite c z (BitVec.ofNat 8 (r.data % 0x100)) with
        | .ok c' => .next { s with cart := some c', pending := rest, response := some .ok }
        | .error f => .next { s with pending := rest, response := some (.fault f) })

/-- 70_reset_and_hazards.md R228, 60_exceptions.md R200: with a cartridge and a bus, every step on a
transaction that is one answers a next state: no fault ever stops the block. -/
def Obligations.AttachedBlockAlwaysAnswers : Prop :=
  ∀ s : State, s.cart ≠ none → s.bus ≠ none →
    (∀ r, s.pending.head? = some r → r.sel.toNat ≤ 0x8) → ∃ t, step s = .next t

/-- 20_memory.md R61, 10_state.md R34: every step serves exactly the oldest transaction, one at a time
and in the order issued, and never changes the configuration; with none waiting it changes nothing
(70_reset_and_hazards.md R228; the model's idle step, log 6). -/
def Obligations.StepServesOneTransactionInOrder : Prop :=
  (∀ s t : State, step s = .next t → t.pending = s.pending.tail ∧ t.params = s.params) ∧
  (∀ s : State, s.pending = [] → step s = .next s)

/-! ### Bus reads -/

/-- 42_memory_bus.md R162 with 41_cartridge_port.md R136, R137: a loaded cartridge answers BUS.RD at
0x0000–0x3FFF from bank 0 and at 0x4000–0x7FFF from the effective bank; an index past the image
reads 0xFF. -/
def Obligations.BusReadOfRomAnswersItsByte : Prop :=
  ∀ (s : State) (c : Cartridge) (h : Header) (b : Bus) (a : Addr),
    s.cart = some c → c.life = .loaded h → s.bus = some b → a.toNat ≤ 0x7FFF →
    exec (.busRdCart a) s = .next { s with response := some (.byte
      (let i := if a.toNat ≤ 0x3FFF then a.toNat
        else effBank c.bank h.romBanks * 0x4000 + (a.toNat - 0x4000)
       if i < c.rom.size then c.rom.cells.read i else 0xFF)) }

/-- 42_memory_bus.md R165 to R168: reads of work RAM, of its echo, of high RAM and of the
interrupt-enable byte answer the stored byte and change nothing, in either lifecycle state. -/
def Obligations.BusReadOfStoresAnswersTheByte : Prop :=
  ∀ (s : State) (b : Bus) (a : Addr), s.bus = some b →
    (0xC000 ≤ a.toNat ∧ a.toNat ≤ 0xDFFF → exec (.busRdWram a) s =
      .next { s with response := some (.byte (b.wram.read (a.toNat - 0xC000))) }) ∧
    (0xE000 ≤ a.toNat ∧ a.toNat ≤ 0xFDFF → exec (.busRdEcho a) s =
      .next { s with response := some (.byte (b.wram.read (a.toNat - 0xE000))) }) ∧
    (0xFF80 ≤ a.toNat ∧ a.toNat ≤ 0xFFFE → exec (.busRdHram a) s =
      .next { s with response := some (.byte (b.hram.read (a.toNat - 0xFF80))) }) ∧
    exec .busRdIe s = .next { s with response := some (.byte b.ie) }

/-- 42_memory_bus.md R169, R164, 41_cartridge_port.md R138, 20_memory.md R57: the stub regions (in
either lifecycle state) and external RAM (of a loaded cartridge) read exactly 0xFF. -/
def Obligations.RegionsWithoutStorageReadFF : Prop :=
  ∀ (s : State) (a : Addr),
    (s.bus ≠ none → exec (.busRdStub a) s = .next { s with response := some (.byte 0xFF) }) ∧
    (∀ c h, s.cart = some c → c.life = .loaded h → 0xA000 ≤ a.toNat ∧ a.toNat ≤ 0xBFFF →
      exec (.cartRdEram a) s = .next { s with response := some (.byte 0xFF) } ∧
      (s.bus ≠ none → exec (.busRdEram a) s = .next { s with response := some (.byte 0xFF) }))

/-! ### Bus writes -/

/-- 42_memory_bus.md R172, R173, 20_memory.md R58: a write of work RAM, or through its echo, stores
the byte at the address's index, leaves every other byte of work RAM, high RAM, the interrupt-enable
byte and the cartridge as they were, and answers `Ok`. -/
def Obligations.WorkRamWriteStoresOneByte : Prop :=
  ∀ (s : State) (b : Bus) (a : Addr) (v : Byte), BlockInv s → s.bus = some b →
    (0xC000 ≤ a.toNat ∧ a.toNat ≤ 0xDFFF →
      ∃ m, exec (.busWrWram a v) s =
          .next { s with bus := some { b with wram := m }, response := some .ok } ∧
        ∀ i, m.read i = if i = a.toNat - 0xC000 then v else b.wram.read i) ∧
    (0xE000 ≤ a.toNat ∧ a.toNat ≤ 0xFDFF →
      ∃ m, exec (.busWrEcho a v) s =
          .next { s with bus := some { b with wram := m }, response := some .ok } ∧
        ∀ i, m.read i = if i = a.toNat - 0xE000 then v else b.wram.read i)

/-- 42_memory_bus.md R174, R175: a write of high RAM stores the byte at `addr - 0xFF80`, and one of the
interrupt-enable byte all 8 bits; each changes no other byte of the block, and answers `Ok`. -/
def Obligations.HighRamAndInterruptEnableWritesStoreOneByte : Prop :=
  ∀ (s : State) (b : Bus) (a : Addr) (v : Byte), BlockInv s → s.bus = some b →
    (0xFF80 ≤ a.toNat ∧ a.toNat ≤ 0xFFFE →
      ∃ m, exec (.busWrHram a v) s =
          .next { s with bus := some { b with hram := m }, response := some .ok } ∧
        ∀ i, m.read i = if i = a.toNat - 0xFF80 then v else b.hram.read i) ∧
    exec (.busWrIe v) s = .next { s with bus := some { b with ie := v }, response := some .ok }

/-- 42_memory_bus.md R176, R171, 41_cartridge_port.md R144: a write of a stub region (in either
lifecycle state) or of external RAM (of a loaded cartridge) answers `Ok` and changes nothing. -/
def Obligations.WritesWithoutStorageChangeNothing : Prop :=
  ∀ (s : State) (a : Addr) (v : Byte),
    (s.bus ≠ none → exec (.busWrStub a v) s = .next { s with response := some .ok }) ∧
    (∀ c h, s.cart = some c → c.life = .loaded h → 0xA000 ≤ a.toNat ∧ a.toNat ≤ 0xBFFF →
      exec (.cartWrEram a v) s = .next { s with response := some .ok } ∧
      (s.bus ≠ none → exec (.busWrEram a v) s = .next { s with response := some .ok }))

/-- 41_cartridge_port.md R142, 42_memory_bus.md R170: in a loaded cartridge a write of the control
window, at any of its addresses, sets `BANK` to `v & 0x1F` (0 is stored as 0), never faults, and
changes nothing else; the ROM is not written. -/
def Obligations.ControlWriteSetsTheBank : Prop :=
  ∀ (s : State) (c : Cartridge) (h : Header) (a : Addr) (v : Byte),
    s.cart = some c → c.life = .loaded h → 0x2000 ≤ a.toNat ∧ a.toNat ≤ 0x3FFF →
    exec (.cartWrBank a v) s = .next { s with
      cart := some { c with bank := BitVec.ofNat 5 (v.toNat % 0x20) }, response := some .ok } ∧
    (s.bus ≠ none → exec (.busWrCart a v) s = .next { s with
      cart := some { c with bank := BitVec.ofNat 5 (v.toNat % 0x20) }, response := some .ok })

/-- 41_cartridge_port.md R141, R143, 20_memory.md R60: in a loaded cartridge every write of
0x0000–0x1FFF or 0x4000–0x7FFF, at the cartridge port or through the bus, raises `InvalidOperation`
("write to ROM not allowed") and changes nothing. -/
def Obligations.WriteToRomFaults : Prop :=
  ∀ (s : State) (c : Cartridge) (h : Header) (a : Addr) (v : Byte),
    s.cart = some c → c.life = .loaded h →
    (a.toNat ≤ 0x1FFF → exec (.cartWrRomlo a v) s =
      .next { s with response := some (.fault ⟨.invalidOperation, .writeToRom⟩) }) ∧
    (0x4000 ≤ a.toNat ∧ a.toNat ≤ 0x7FFF → exec (.cartWrRomx a v) s =
      .next { s with response := some (.fault ⟨.invalidOperation, .writeToRom⟩) }) ∧
    (s.bus ≠ none → (a.toNat ≤ 0x1FFF ∨ (0x4000 ≤ a.toNat ∧ a.toNat ≤ 0x7FFF)) →
      exec (.busWrCart a v) s =
        .next { s with response := some (.fault ⟨.invalidOperation, .writeToRom⟩) })

/-! ### The cartridge port -/

/-- 41_cartridge_port.md R136, R137: a loaded cartridge's fixed window shows bank 0, its switchable
window the effective bank; an index past the image reads 0xFF. -/
def Obligations.CartridgeReadOfRomAnswersItsByte : Prop :=
  ∀ (s : State) (c : Cartridge) (h : Header) (a : Addr),
    s.cart = some c → c.life = .loaded h →
    (a.toNat ≤ 0x3FFF → exec (.cartRdRom0 a) s = .next { s with response := some (.byte
      (if a.toNat < c.rom.size then c.rom.cells.read a.toNat else 0xFF)) }) ∧
    (0x4000 ≤ a.toNat ∧ a.toNat ≤ 0x7FFF →
      exec (.cartRdRomx a) s = .next { s with response := some (.byte
        (let i := effBank c.bank h.romBanks * 0x4000 + (a.toNat - 0x4000)
         if i < c.rom.size then c.rom.cells.read i else 0xFF)) })

/-- 41_cartridge_port.md R139, R145: in a loaded cartridge a port access at 0x8000–0x9FFF or
0xC000–0xFFFF always raises `OutOfRange` ("out of cartridge range") and changes nothing. -/
def Obligations.PortAccessOutOfRangeFaults : Prop :=
  ∀ (s : State) (c : Cartridge) (h : Header) (a : Addr) (v : Byte),
    s.cart = some c → c.life = .loaded h →
    (0x8000 ≤ a.toNat ∧ a.toNat ≤ 0x9FFF) ∨ 0xC000 ≤ a.toNat →
    exec (.cartRdOor a) s =
      .next { s with response := some (.fault ⟨.outOfRange, .outOfCartRange⟩) } ∧
    exec (.cartWrOor a v) s =
      .next { s with response := some (.fault ⟨.outOfRange, .outOfCartRange⟩) }

/-- 41_cartridge_port.md R135, 42_memory_bus.md R162, R164: once the cartridge is disposed, every
cartridge-port read and every bus read of 0x0000–0x7FFF and 0xA000–0xBFFF raises `OutOfRange`
("cartridge disposed"), whatever the region, and changes nothing. The kind is the spec's own decision
(D10, C4; log 20), the lifecycle's coming before the region too (D11; log 12), and that the bus's
external-RAM read faults rests on who answers it (D9, C2; log 19). -/
def Obligations.DisposedReadsFault : Prop :=
  ∀ (s : State) (c : Cartridge) (a : Addr) (i : Instr),
    s.cart = some c → c.life = .disposed →
    (i ∈ [.cartRdRom0 a, .cartRdRomx a, .cartRdEram a, .cartRdOor a] ∨
      (s.bus ≠ none ∧ i ∈ [.busRdCart a, .busRdEram a])) →
    exec i s = .next { s with response := some (.fault ⟨.outOfRange, .cartridgeDisposed⟩) }

/-- 41_cartridge_port.md R140, 42_memory_bus.md R170, R171: once the cartridge is disposed, every
cartridge-port write and every bus write of 0x0000–0x7FFF and 0xA000–0xBFFF raises
`InvalidOperation` ("cartridge disposed"), the control window too, and changes nothing. The kind is the
spec's own decision, a guess between two (D10, C4, U1; log 20), the lifecycle's coming before the region
too (D11; log 12), and that the bus's external-RAM write faults rests on who answers it (D9, C2; log 19). -/
def Obligations.DisposedWritesFault : Prop :=
  ∀ (s : State) (c : Cartridge) (a : Addr) (v : Byte) (i : Instr),
    s.cart = some c → c.life = .disposed →
    (i ∈ [.cartWrRomlo a v, .cartWrBank a v, .cartWrRomx a v, .cartWrEram a v, .cartWrOor a v] ∨
      (s.bus ≠ none ∧ i ∈ [.busWrCart a v, .busWrEram a v])) →
    exec i s = .next { s with response := some (.fault ⟨.invalidOperation, .cartridgeDisposed⟩) }

/-- 42_memory_bus.md R163, R177: on a forwarded address a bus transaction has exactly the cartridge
port's outcome, the address passed on unchanged, and the port's out-of-range regions never arise. -/
def Obligations.BusForwardsToTheCartridgePort : Prop :=
  ∀ (s : State) (a : Addr) (v : Byte), s.bus ≠ none →
    (a.toNat ≤ 0x7FFF → exec (.busRdCart a) s = exec (decodeCartRead a) s ∧
      exec (.busWrCart a v) s = exec (decodeCartWrite a v) s) ∧
    (0xA000 ≤ a.toNat ∧ a.toNat ≤ 0xBFFF →
      exec (.busRdEram a) s = exec (decodeCartRead a) s ∧
      exec (.busWrEram a v) s = exec (decodeCartWrite a v) s) ∧
    (a.toNat ≤ 0x7FFF ∨ (0xA000 ≤ a.toNat ∧ a.toNat ≤ 0xBFFF) →
      decodeCartRead a ≠ .cartRdOor a ∧ decodeCartWrite a v ≠ .cartWrOor a v)

/-! ### Host operations, lifecycle, reset -/

/-- 40_header_decoder.md R110, R111, R119: HOST.HDR answers the header record, or raises
`MalformedInput` for the first of the four conditions that holds, in the order length, 0x147, 0x148,
0x149 (the order of the three is the spec's own decision, D11; log 12); it changes nothing, and needs no cartridge. -/
def Obligations.HeaderDecodeOutcome : Prop :=
  ∀ (s : State) (im : Image),
    let p := s.params
    let ty := lookupCode p.cartTypeTable.val (im.byte 0x147)
    let n := lookupCode p.romSizeTable (im.byte 0x148)
    let m := lookupCode p.ramSizeTable (im.byte 0x149)
    let faults := fun x => exec (.hostHdr im) s =
      .next { s with response := some (.fault ⟨.malformedInput, x⟩) }
    (im.size < 0x150 → faults .romTooShort) ∧
    (0x150 ≤ im.size → ty = none → faults .unknownCartType) ∧
    (0x150 ≤ im.size → ty ≠ none → n = none → faults .unknownRomSize) ∧
    (0x150 ≤ im.size → ty ≠ none → n ≠ none → m = none → faults .unknownRamSize) ∧
    (∀ ty' n' m', 0x150 ≤ im.size → ty = some ty' → n = some n' → m = some m' →
      exec (.hostHdr im) s = .next { s with response := some (.header
        { title := title p im, type := ty', romBanks := n', ramBanks := m'
          cgbFlag := im.byte 0x143, sgbFlag := im.byte p.sgbFlagOffset.val
          headerChecksumOK := decide (checksum p im = im.byte 0x14D) }) })

/-- 41_cartridge_port.md R130: HOST.LOAD of an image whose header decodes to `h` makes a cartridge
with that image's length and bytes, `HDR` = `h`, `BANK` = 1 and `LIFE` = `Loaded`, from any state,
and answers `Ok`. -/
def Obligations.LoadBuildsTheCartridge : Prop :=
  ∀ (s : State) (im : Image) (h : Header), parseHeader s.params im = .ok h →
    ∃ t c, exec (.hostLoad im) s = .next t ∧ t.cart = some c ∧
      c.rom.size = im.size ∧ (∀ i, c.rom.byte i = im.byte i) ∧
      c.bank = 1 ∧ c.life = .loaded h ∧ t.response = some .ok ∧
      t.params = s.params ∧ t.pending = s.pending

/-- 41_cartridge_port.md R130, 60_exceptions.md R200: HOST.LOAD of an image whose header does not
decode raises the decoder's `MalformedInput`, and no cartridge exists after it. That it leaves
no bus either is the model's (log 4). -/
def Obligations.FailedLoadLeavesNoCartridge : Prop :=
  ∀ (s : State) (im : Image) (f : FaultRecord), parseHeader s.params im = .error f →
    f.kind = .malformedInput ∧
    exec (.hostLoad im) s =
      .next { s with cart := none, bus := none, response := some (.fault f) }

/-- 41_cartridge_port.md R130, 42_memory_bus.md R160, 93_implementation_defined.md U15: with no cartridge
every cartridge operation and HOST.ATTACH is refused by name (log 12), while HOST.HDR and HOST.LOAD,
which read no state, still answer; with no bus every BUS transaction is refused. A HOST.LOAD that succeeds makes a new block with no bus
until HOST.ATTACH (D18; the model's reading, log 4). -/
def Obligations.AbsentComponentIsRefused : Prop :=
  (∀ (s : State) (a : Addr) (v : Byte) (ram : RamInit) (im : Image), s.cart = none →
    exec (decodeCartRead a) s = .refused .noCartridge ∧
    exec (decodeCartWrite a v) s = .refused .noCartridge ∧
    exec (.hostAttach ram) s = .refused .noCartridge ∧
    exec .hostDispose s = .refused .noCartridge ∧
    exec .hostRomsize s = .refused .noCartridge ∧
    (∃ t, exec (.hostHdr im) s = .next t) ∧ ∃ t, exec (.hostLoad im) s = .next t) ∧
  (∀ (s : State) (a : Addr) (v : Byte), s.bus = none →
    exec (decodeBusRead a) s = .refused .noBus ∧ exec (decodeBusWrite a v) s = .refused .noBus) ∧
  (∀ (s t : State) (im : Image) (h : Header), parseHeader s.params im = .ok h →
    exec (.hostLoad im) s = .next t → t.bus = none)

/-- 42_memory_bus.md R160: HOST.ATTACH gives work RAM, high RAM and the interrupt-enable byte the
contents of the draw, byte for byte, and reads and writes nothing of the cartridge. The statement covers
a disposed cartridge and a second HOST.ATTACH too, of which the spec does not speak: there it is the
model's reading (log 21). -/
def Obligations.AttachCreatesTheStores : Prop :=
  ∀ (s : State) (c : Cartridge) (ram : RamInit), s.cart = some c →
    ∃ b, exec (.hostAttach ram) s = .next { s with bus := some b, response := some .ok } ∧
      (∀ i, i < 0x2000 → b.wram.read i = ram.wram0.read i) ∧
      (∀ i, i < 0x7F → b.hram.read i = ram.hram0.read i) ∧
      b.ie = ram.ie0

/-- 41_cartridge_port.md R131: HOST.DISPOSE leaves `ROM` empty, `L` = 0, `BANK` = 1 and `LIFE` =
`Disposed`, leaves the bus's stores alone and never faults; a second one changes nothing. -/
def Obligations.DisposeEmptiesTheCartridge : Prop :=
  ∀ (s : State) (c : Cartridge), s.cart = some c →
    ∃ t, exec .hostDispose s = .next t ∧
      t = { s with
        cart := some { rom := { size := 0, cells := [] }, bank := 1, life := .disposed }
        response := some .ok } ∧
      exec .hostDispose t = .next t

/-- 41_cartridge_port.md R132: HOST.ROMSIZE answers `L`, the image length, in either lifecycle state;
after disposal it answers 0. -/
def Obligations.RomSizeAnswersTheLength : Prop :=
  ∀ (s t : State) (c : Cartridge), s.cart = some c →
    exec .hostRomsize s = .next { s with response := some (.size c.rom.size) } ∧
    (exec .hostDispose s = .next t →
      exec .hostRomsize t = .next { t with response := some (.size 0) })

/-- 10_state.md R37: reset is HOST.LOAD then HOST.ATTACH. From any state they leave the supplied image
and its length, `HDR` = `HOST.HDR(ROM)`, `BANK` = 1, `LIFE` = `Loaded`, the stores as `RamInit`
draws them, and effective bank 1 (0 if `N` = 1); HOST.DISPOSE after them leaves `L` = 0, `BANK` = 1,
`LIFE` = `Disposed` and the stores as they were. -/
def Obligations.ResetSequenceLeavesTheResetValues : Prop :=
  ∀ (s : State) (im : Image) (ram : RamInit) (h : Header), parseHeader s.params im = .ok h →
    ∃ t u d c b, exec (.hostLoad im) s = .next t ∧ exec (.hostAttach ram) t = .next u ∧
      u.cart = some c ∧ u.bus = some b ∧
      c.rom.size = im.size ∧ (∀ i, c.rom.byte i = im.byte i) ∧
      c.bank = 1 ∧ c.life = .loaded h ∧
      (∀ i, i < 0x2000 → b.wram.read i = ram.wram0.read i) ∧
      (∀ i, i < 0x7F → b.hram.read i = ram.hram0.read i) ∧ b.ie = ram.ie0 ∧
      effBank c.bank h.romBanks = (if h.romBanks.val = 1 then 0 else 1) ∧
      exec .hostDispose u = .next d ∧
      d.cart = some { rom := { size := 0, cells := [] }, bank := 1, life := .disposed } ∧
      d.bus = some b

/-- The model's `State.reset` (the image, the draw and the tables are the model's choice: logs 1, 2 and 9) is what
HOST.LOAD then HOST.ATTACH leave where there was no block, but that no outcome has been delivered. -/
def Obligations.ResetStateIsLoadThenAttach : Prop :=
  ∃ t u, exec (.hostLoad resetImage)
      { params := Config.defaults, cart := none, bus := none, pending := [], response := none }
        = .next t ∧
    exec (.hostAttach RamInit.blank) t = .next u ∧ { u with response := none } = State.reset

/-- 10_state.md R37, R21, R22, R26, R27: the invariant of the block holds at the model's reset state,
whose image, stores and tables are the model's choice (logs 1, 2 and 9). -/
def Obligations.BlockInvHoldsAtReset : Prop := BlockInv State.reset

/-- 10_state.md R21, R22, R26, R27, 41_cartridge_port.md R131: every step keeps the invariant, from
every state that has it: the stores canonical and of their sizes, `HDR` the decoding of `ROM`, a
disposed cartridge empty with `BANK` 1, and no bus without a cartridge. -/
def Obligations.StepKeepsBlockInv : Prop :=
  ∀ s t : State, BlockInv s → step s = .next t → BlockInv t

/-- 10_state.md R21, R22, 41_cartridge_port.md R133: along any run whose transactions are neither
HOST.LOAD (0x5) nor HOST.DISPOSE (0x7), the ROM image, the lifecycle with its header record, and the
exposed metadata are constant. -/
def Obligations.RomAndHeaderAreConstantBetweenLoads : Prop :=
  ∀ (k : Nat) (s t : State) (c : Cartridge), s.cart = some c →
    (∀ q ∈ s.pending.take k, q.sel ≠ 0x5 ∧ q.sel ≠ 0x7) →
    Host.Core.run core k s = .next t →
    ∃ c' : Cartridge, t.cart = some c' ∧ c'.rom = c.rom ∧ c'.life = c.life ∧
      metadata t = metadata s

/-- 10_state.md R25, 41_cartridge_port.md R146: no transition leaves `Disposed`: along any run without
a HOST.LOAD a disposed cartridge stays disposed, empty, and with `BANK` 1. -/
def Obligations.DisposedIsTerminal : Prop :=
  ∀ (k : Nat) (s t : State) (c : Cartridge), BlockInv s → s.cart = some c → c.life = .disposed →
    (∀ q ∈ s.pending.take k, q.sel ≠ 0x5) → Host.Core.run core k s = .next t →
    ∃ c' : Cartridge, t.cart = some c' ∧ c'.life = .disposed ∧ c'.rom.size = 0 ∧ c'.bank = 1

/-- 10_state.md R23: only HOST.LOAD, HOST.DISPOSE and a write whose address lies in [0x2000, 0x3FFF]
change `BANK`; nothing else writes it. -/
def Obligations.OnlyControlWritesChangeTheBank : Prop :=
  ∀ (s t : State) (c c' : Cartridge), step s = .next t → s.cart = some c → t.cart = some c' →
    c'.bank ≠ c.bank →
    ∃ r rest, s.pending = r :: rest ∧
      (r.sel = 0x5 ∨ r.sel = 0x7 ∨
        ((r.sel = 0x1 ∨ r.sel = 0x3) ∧ ∃ z : Nat, r.addr = .int z ∧ 0x2000 ≤ z ∧ z ≤ 0x3FFF))

/-- 10_state.md R20, R36: a byte of work RAM, of high RAM or the interrupt-enable byte changes only by
a BUS.WR at an address that names it, by HOST.ATTACH, or by HOST.LOAD (which ends the block). -/
def Obligations.StoredBytesChangeOnlyByTheirWrites : Prop :=
  ∀ (s t : State) (x : StoreByte), BlockInv s → step s = .next t → storeByte t x ≠ storeByte s x →
    ∃ r rest, s.pending = r :: rest ∧ (storesTo r = some x ∨ r.sel = 0x5 ∨ r.sel = 0x6)

/-! ### The bank multiplexer -/

/-- 10_state.md R35: with two banks or more the effective bank is never 0 and never past the last;
with one bank it is 0. -/
def Obligations.EffectiveBankStaysInRange : Prop :=
  ∀ (bank : BitVec 5) (n : BankCount),
    (2 ≤ n.val → 1 ≤ effBank bank n ∧ effBank bank n ≤ n.val - 1) ∧ (n.val = 1 → effBank bank n = 0)

/-- 41_cartridge_port.md R134: the effective bank is the register, coerced to 1 if 0, modulo `N`,
coerced again if 0 and `N > 1`; and its properties (a) to (f). -/
def Obligations.EffectiveBankProperties : Prop :=
  ∀ (bank : BitVec 5) (n : BankCount),
    (∀ b1 b2 : Nat, b1 = (if bank.toNat = 0 then 1 else bank.toNat) → b2 = b1 % n.val →
      effBank bank n = if b2 = 0 ∧ n.val > 1 then 1 else b2) ∧
    (n.val = 1 → effBank bank n = 0) ∧
    (n.val = 2 → effBank bank n = 1) ∧
    (32 ≤ n.val → effBank bank n = max bank.toNat 1) ∧
    (2 ≤ n.val → n.val ≤ 31 → 1 ≤ effBank bank n ∧ effBank bank n ≤ n.val - 1 ∧
      (n.val ∣ bank.toNat → effBank bank n = 1)) ∧
    effBank 0 n = effBank 1 n ∧
    (∀ b1 k : Nat, b1 = (if bank.toNat = 0 then 1 else bank.toNat) → n.val = 2 ^ k →
      b1 % n.val = b1 &&& (n.val - 1))

/-- 41_cartridge_port.md R147: for `N` = 1 the effective bank is 0; for `N = 2^k`, `1 <= k <= 5`, it is
`BANK mod N` where that is not 0, else 1; for `N` = 64, 128, 256, 512 it is `BANK`, or 1 for 0. -/
def Obligations.EffectiveBankOfPowersOfTwo : Prop :=
  ∀ (bank : BitVec 5) (n : BankCount) (k : Nat), n.val = 2 ^ k →
    (k = 0 → effBank bank n = 0) ∧
    (1 ≤ k → k ≤ 5 →
      effBank bank n = if bank.toNat % n.val ≠ 0 then bank.toNat % n.val else 1) ∧
    (6 ≤ k → k ≤ 9 → effBank bank n = if bank.toNat = 0 then 1 else bank.toNat)

/-- 30_encoding.md R85, 00_scope.md R9 (c): the switchable-window index is `{e[4:0], addr[13:0]}` and
never exceeds 0x7FFFF, for every bank register, bank count and address of the window. -/
def Obligations.WindowIndexFitsNineteenBits : Prop :=
  ∀ (bank : BitVec 5) (n : BankCount) (a : Addr), 0x4000 ≤ a.toNat ∧ a.toNat ≤ 0x7FFF →
    effBank bank n ≤ 31 ∧
    windowIndex (effBank bank n) a = effBank bank n * 0x4000 + (a.toNat - 0x4000) ∧
    windowIndex (effBank bank n) a =
      (BitVec.ofNat 5 (effBank bank n) ++ a.extractLsb' 0 14).toNat ∧
    windowIndex (effBank bank n) a ≤ 0x7FFFF

/-- 20_memory.md R61 (b), 70_reset_and_hazards.md R225, 41_cartridge_port.md R142: a control write
through the bus governs the very next read of the switchable window. -/
def Obligations.ControlWriteGovernsTheNextRead : Prop :=
  ∀ (s : State) (c : Cartridge) (h : Header) (w a : Addr) (v : Byte),
    s.cart = some c → c.life = .loaded h → s.bus ≠ none →
    0x2000 ≤ w.toNat ∧ w.toNat ≤ 0x3FFF → 0x4000 ≤ a.toNat ∧ a.toNat ≤ 0x7FFF →
    s.pending = [busWrite w v, busRead a] →
    ∃ t : State, Host.Core.run core 2 s = .next t ∧ t.response = some (.byte (c.rom.byte
      (effBank (BitVec.ofNat 5 (v.toNat % 0x20)) h.romBanks * 0x4000 + (a.toNat - 0x4000))))

/-! ### The header decoder -/

/-- 40_header_decoder.md R118: the checksum's closed form, `(-(sum of the bytes summed) - count) mod
256`, with `count` 24 or 25, and the flag, which is true exactly when it equals byte 0x14D. -/
def Obligations.ChecksumClosedForm : Prop :=
  ∀ (p : Params) (im : Image),
    checksum p im =
      -((List.range p.hdrCkLast.count).map fun k => im.byte (0x134 + k)).sum
        - BitVec.ofNat 8 p.hdrCkLast.count ∧
    (headerChecksumOK p im = true ↔ checksum p im = im.byte 0x14D)

/-- 40_header_decoder.md R118, 95_test_vectors.md V1: changing any one summed byte, and nothing else,
makes a correct checksum incorrect. -/
def Obligations.FlippedHeaderByteFailsTheChecksum : Prop :=
  ∀ (p : Params) (x y : Image) (j : Nat),
    0x134 ≤ j → j < 0x134 + p.hdrCkLast.count → x.byte j ≠ y.byte j →
    (∀ i, i ≠ j → x.byte i = y.byte i) →
    headerChecksumOK p x = true → headerChecksumOK p y = false

/-- 40_header_decoder.md R112: the title is the bytes from 0x134 up to the first zero byte, or to 11
or 16 bytes by bit 7 of byte 0x143, without the trailing bytes in `TitleWs`; leading ones stay. -/
def Obligations.TitleIsTheTrimmedPrefix : Prop :=
  ∀ (p : Params) (im : Image), ∃ m n,
    n ≤ m ∧ m ≤ (if (im.byte 0x143).getLsbD 7 then 11 else 16) ∧
    (∀ k, k < m → im.byte (0x134 + k) ≠ 0) ∧
    (m = (if (im.byte 0x143).getLsbD 7 then 11 else 16) ∨ im.byte (0x134 + m) = 0) ∧
    title p im = (List.range n).map (fun k => im.byte (0x134 + k)) ∧
    (∀ k, n ≤ k → k < m → im.byte (0x134 + k) ∈ p.titleWs) ∧
    (∀ k, n = k + 1 → im.byte (0x134 + k) ∉ p.titleWs)

/-- 30_encoding.md R91, 40_header_decoder.md R119: the header record depends on the listed header
bytes alone: two images long enough that agree on them decode alike. -/
def Obligations.HeaderDependsOnHeaderBytesOnly : Prop :=
  ∀ (p : Params) (x y : Image), AgreeOnHeader p x y → parseHeader p x = parseHeader p y

/-- 40_header_decoder.md R120 to R122: the default tables (which the spec takes from general
knowledge, log 9), whole: the 28 type codes and no other, `N = 2 << code` for the ROM-size codes 0 to 8
and no other, the six RAM-size codes and no other. -/
def Obligations.DefaultTablesAsListed : Prop :=
  (∀ c : Byte, lookupCode Config.defaults.cartTypeTable.val c = match c.toNat with
    | 0x00 => some .romOnly
    | 0x01 => some .mbc1
    | 0x02 => some .mbc1Ram
    | 0x03 => some .mbc1RamBattery
    | 0x05 => some .mbc2
    | 0x06 => some .mbc2Battery
    | 0x08 => some .romRam
    | 0x09 => some .romRamBattery
    | 0x0B => some .mmm01
    | 0x0C => some .mmm01Ram
    | 0x0D => some .mmm01RamBattery
    | 0x0F => some .mbc3TimerBattery
    | 0x10 => some .mbc3TimerRamBattery
    | 0x11 => some .mbc3
    | 0x12 => some .mbc3Ram
    | 0x13 => some .mbc3RamBattery
    | 0x19 => some .mbc5
    | 0x1A => some .mbc5Ram
    | 0x1B => some .mbc5RamBattery
    | 0x1C => some .mbc5Rumble
    | 0x1D => some .mbc5RumbleRam
    | 0x1E => some .mbc5RumbleRamBattery
    | 0x20 => some .mbc6
    | 0x22 => some .mbc7SensorRumbleRamBattery
    | 0xFC => some .pocketCamera
    | 0xFD => some .bandaiTama5
    | 0xFE => some .huC3
    | 0xFF => some .huC1RamBattery
    | _ => none) ∧
  (∀ c : Byte, (lookupCode Config.defaults.romSizeTable c).map (fun n => n.val) =
    if c.toNat ≤ 8 then some (2 * 2 ^ c.toNat) else none) ∧
  (∀ c : Byte, lookupCode Config.defaults.ramSizeTable c =
    if c.toNat ≤ 5 then [0, 1, 1, 4, 16, 8][c.toNat]? else none)

/-! ### Rules of the whole machine -/

/-- 20_memory.md R56 (c): no read has a side effect: it changes no state element at any address and in
either lifecycle state, and reading again with no write between gives the same outcome. -/
def Obligations.ReadsHaveNoSideEffect : Prop :=
  ∀ (i : Instr) (s t : State), Reads i = true → exec i s = .next t →
    blockOf t = blockOf s ∧ t.pending = s.pending ∧ exec i t = .next t

/-- 20_memory.md R56 (d): writes are idempotent: the same write again leaves the same state, and
answers the same. -/
def Obligations.WritesAreIdempotent : Prop :=
  ∀ (i : Instr) (s t : State), BlockInv s → i.wf = true → Writes i = true →
    exec i s = .next t → exec i t = .next t

/-- 60_exceptions.md R199: a transaction that raises a fault assigns no state element. HOST.LOAD is
apart: its fault leaves no cartridge (R130; log 4). -/
def Obligations.FaultLeavesNoTrace : Prop :=
  ∀ (i : Instr) (s t : State) (f : FaultRecord), (∀ im, i ≠ .hostLoad im) →
    exec i s = .next t → t.response = some (.fault f) →
    t = { s with response := some (.fault f) }

/-- 60_exceptions.md R200: repeating a transaction that faulted gives the same fault again. -/
def Obligations.RepeatedFaultIsTheSame : Prop :=
  ∀ (i : Instr) (s t : State) (f : FaultRecord),
    exec i s = .next t → t.response = some (.fault f) → exec i t = .next t

/-- 60_exceptions.md R192, R193: a transaction faults only at the fault sites of the table, on their
conditions; one that is not listed there cannot fault (F5 and F6, raised at the entry, are
BadAddressArgumentFaults). The kinds of F7 and F8, after disposal, are the spec's own decision (D10, C4,
U1; log 20). -/
def Obligations.FaultsOnlyAtTheFaultSites : Prop :=
  ∀ (i : Instr) (s t : State) (f : FaultRecord), i.wf = true →
    exec i s = .next t → t.response = some (.fault f) → FaultSite i s f

/-- 10_state.md R22: of the header record only `N` influences any transaction: two states that differ
only in the other metadata have the same outcomes, and stay so. -/
def Obligations.MetadataInfluencesNothing : Prop :=
  ∀ (i : Instr) (s s' t : State), forgetMetadata s = forgetMetadata s' → exec i s = .next t →
    ∃ t', exec i s' = .next t' ∧ t'.response = t.response ∧ forgetMetadata t' = forgetMetadata t

/-- 42_memory_bus.md R178, 10_state.md R36: the bus-owned regions do not depend on the cartridge: with
any other cartridge, or after its disposal, the same transaction leaves the same stores and answers
the same. -/
def Obligations.BusOwnedRegionsIgnoreTheCartridge : Prop :=
  ∀ (i : Instr) (s t : State) (c : Option Cartridge) (a : Addr) (v : Byte),
    i ∈ [.busRdStub a, .busRdWram a, .busRdEcho a, .busRdHram a, .busRdIe, .busWrStub a v,
      .busWrWram a v, .busWrEcho a v, .busWrHram a v, .busWrIe v] →
    exec i s = .next t → exec i { s with cart := c } = .next { t with cart := c }

/-- 20_memory.md R58: for `0 <= i < 0x1E00`, `0xC000 + i` and `0xE000 + i` name the same byte: what is
written through either window is read through the other. -/
def Obligations.EchoWindowAliasesWorkRam : Prop :=
  ∀ (s : State) (i : Nat) (v : Byte) (x y : Addr), BlockInv s → s.bus ≠ none → i < 0x1E00 →
    (x.toNat = 0xC000 + i ∧ y.toNat = 0xE000 + i) ∨ (x.toNat = 0xE000 + i ∧ y.toNat = 0xC000 + i) →
    s.pending = [busWrite x v, busRead y] →
    ∃ t : State, Host.Core.run core 2 s = .next t ∧ t.response = some (.byte v)

/-- 20_memory.md R61 (a): a read of a work-RAM, high-RAM or interrupt-enable byte returns the value of
the latest earlier write to that byte through any of its addresses, along any run in which no later
transaction stores to it and none is HOST.LOAD (0x5) or HOST.ATTACH (0x6), which end its bus. -/
def Obligations.LatestWriteIsRead : Prop :=
  ∀ (k : Nat) (s t : State) (r : Request) (rest : List Request) (x : StoreByte) (a : Addr),
    BlockInv s → s.bus ≠ none → s.pending = r :: rest → storesTo r = some x →
    (∀ q ∈ rest.take k, storesTo q ≠ some x ∧ q.sel ≠ 0x5 ∧ q.sel ≠ 0x6) →
    Host.Core.run core (k + 1) s = .next t → storeAt a.toNat = some x →
    step { t with pending := [busRead a] } = .next { t with
      pending := [], response := some (.byte (BitVec.ofNat 8 (r.data % 0x100))) }
end

