-- ==== Sys2Proof/Laws/Decode.lean ====
section
/-! SUPPORT. What the address decode and the word's fields are in numbers, so that no later proof
takes a bit field apart. -/

namespace Sys2Proof

theorem slice_lt (hi lo : Nat) {n : Nat} (v : BitVec n) : slice hi lo v < 2 ^ (hi - lo + 1) :=
  Nat.mod_lt _ (Nat.two_pow_pos _)

/-- Two decision trees agree where their first tests agree and, past those, their rests do. -/
theorem ite_eq_ite_of {α : Type} {p q : Prop} [Decidable p] [Decidable q] {t x y : α} (h : p ↔ q)
    (hr : ¬ q → x = y) : (if p then t else x) = if q then t else y := by
  by_cases hq : q
  · rw [if_pos (h.mpr hq), if_pos hq]
  · rw [if_neg (fun hp => hq (h.mp hp)), if_neg hq, hr hq]

/-! ### The address decode, in addresses -/

/-- The bit tree of R82 is the address map of R51. -/
theorem busRegion_eq (a : Addr) : busRegion a =
    if a.toNat ≤ 0x7FFF then .cart
    else if a.toNat ≤ 0x9FFF then .stub
    else if a.toNat ≤ 0xBFFF then .eram
    else if a.toNat ≤ 0xDFFF then .wram
    else if a.toNat ≤ 0xFDFF then .echo
    else if a.toNat ≤ 0xFF7F then .stub
    else if a.toNat ≤ 0xFFFE then .hram
    else .ie := by
  have h := a.isLt
  unfold busRegion slice
  refine ite_eq_ite_of (by omega) fun h₁ => ?_
  refine ite_eq_ite_of (by omega) fun h₂ => ?_
  refine ite_eq_ite_of (by omega) fun h₃ => ?_
  refine ite_eq_ite_of (by omega) fun h₄ => ?_
  refine ite_eq_ite_of (by omega) fun h₅ => ?_
  refine ite_eq_ite_of (by omega) fun h₆ => ?_
  exact ite_eq_ite_of (by omega) fun _ => rfl

/-- The bit tree of R83 is the read column of R52. -/
theorem cartReadRegion_eq (a : Addr) : cartReadRegion a =
    if a.toNat ≤ 0x3FFF then .rom0
    else if a.toNat ≤ 0x7FFF then .romx
    else if 0xA000 ≤ a.toNat ∧ a.toNat ≤ 0xBFFF then .eram
    else .oor := by
  have h := a.isLt
  unfold cartReadRegion slice
  refine ite_eq_ite_of (by omega) fun h₁ => ?_
  refine ite_eq_ite_of (by omega) fun h₂ => ?_
  exact ite_eq_ite_of (by omega) fun _ => rfl

/-- The bit tree of R83 is the write column of R52. -/
theorem cartWriteRegion_eq (a : Addr) : cartWriteRegion a =
    if a.toNat ≤ 0x1FFF then .romlo
    else if a.toNat ≤ 0x3FFF then .bank
    else if a.toNat ≤ 0x7FFF then .romx
    else if 0xA000 ≤ a.toNat ∧ a.toNat ≤ 0xBFFF then .eram
    else .oor := by
  have h := a.isLt
  unfold cartWriteRegion slice
  refine ite_eq_ite_of (by omega) fun h₁ => ?_
  refine ite_eq_ite_of (by omega) fun h₂ => ?_
  refine ite_eq_ite_of (by omega) fun h₃ => ?_
  exact ite_eq_ite_of (by omega) fun _ => rfl

theorem inRange_iff {lo hi : Nat} {a : Addr} :
    inRange lo hi a = true ↔ lo ≤ a.toNat ∧ a.toNat ≤ hi := by
  simp [inRange]

/-! ### The word's fields -/

theorem makeWord_toNat (k : Nat) (hk : k < 16) (a : Addr) :
    (makeWord k a).toNat = k * 0x10000 + a.toNat := by
  have h := a.isLt
  simp only [makeWord, BitVec.toNat_ofNat, Nat.reducePow]
  omega

@[simp] theorem slice_makeWord_sel (k : Nat) (hk : k < 16) (a : Addr) :
    slice 19 16 (makeWord k a) = k := by
  have h := a.isLt
  rw [slice, makeWord_toNat k hk]
  simp only [Nat.reducePow, Nat.reduceSub, Nat.reduceAdd]
  omega

@[simp] theorem wordAddr_makeWord (k : Nat) (hk : k < 16) (a : Addr) :
    wordAddr (makeWord k a) = a := by
  have h := a.isLt
  apply BitVec.eq_of_toNat_eq
  rw [wordAddr, slice, makeWord_toNat k hk]
  simp only [BitVec.toNat_ofNat, Nat.reducePow, Nat.reduceSub, Nat.reduceAdd]
  omega

@[simp] theorem wordSel_makeWord (k : Nat) (hk : k < 16) (a : Addr) :
    wordSel (makeWord k a) = BitVec.ofNat 4 k := by
  rw [wordSel, slice_makeWord_sel k hk]

theorem wordSel_toNat (w : TxnWord) : (wordSel w).toNat = slice 19 16 w := by
  have h := slice_lt 19 16 w
  simp only [wordSel, BitVec.toNat_ofNat]
  omega

/-- A word is its selector and its address. -/
theorem makeWord_fields (w : TxnWord) : makeWord (wordSel w).toNat (wordAddr w) = w := by
  have h := w.isLt
  apply BitVec.eq_of_toNat_eq
  rw [wordSel_toNat, makeWord_toNat _ (by have := slice_lt 19 16 w; omega)]
  simp only [wordAddr, slice, BitVec.toNat_ofNat, Nat.reducePow, Nat.reduceSub, Nat.reduceAdd]
  omega

namespace Machine

/-! ### The indexes, in addresses -/

theorem fixedIndex_eq {a : Addr} (h : a.toNat ≤ 0x3FFF) : fixedIndex a = a.toNat := by
  simp only [fixedIndex, slice, Nat.reducePow, Nat.reduceSub, Nat.reduceAdd]
  omega

theorem windowIndex_eq {a : Addr} (h : 0x4000 ≤ a.toNat ∧ a.toNat ≤ 0x7FFF) (e : Nat) :
    windowIndex e a = e * 0x4000 + (a.toNat - 0x4000) := by
  simp only [windowIndex, Config.bankSize, slice, Nat.reducePow, Nat.reduceSub, Nat.reduceAdd]
  omega

theorem wramIndex_eq {a : Addr} (h : 0xC000 ≤ a.toNat ∧ a.toNat ≤ 0xDFFF) :
    wramIndex a = a.toNat - 0xC000 := by
  simp only [wramIndex, slice, Nat.reducePow, Nat.reduceSub, Nat.reduceAdd]
  omega

theorem echoIndex_eq {a : Addr} (h : 0xE000 ≤ a.toNat ∧ a.toNat ≤ 0xFDFF) :
    echoIndex a = a.toNat - 0xE000 := by
  simp only [echoIndex, slice, Nat.reducePow, Nat.reduceSub, Nat.reduceAdd]
  omega

theorem hramIndex_eq {a : Addr} (h : 0xFF80 ≤ a.toNat ∧ a.toNat ≤ 0xFFFE) :
    hramIndex a = a.toNat - 0xFF80 := by
  simp only [hramIndex, slice, Nat.reducePow, Nat.reduceSub, Nat.reduceAdd]
  omega

theorem wramIndex_lt (a : Addr) : wramIndex a < Config.wramSize := slice_lt 12 0 a

theorem echoIndex_lt (a : Addr) : echoIndex a < Config.wramSize := slice_lt 12 0 a

theorem bankField_eq (v : Byte) : bankField v = BitVec.ofNat 5 (v.toNat % 0x20) := by
  simp [bankField, slice]

end Machine

end Sys2Proof
end

