-- ==== Sys2Proof/Laws/Memory.lean ====
section
/-! SUPPORT. The laws of a byte store: a read after a write, and the canonical form, which every
operation keeps and which makes equal stores equal lists. -/

namespace Sys2Proof

@[simp] theorem Memory.read_nil (a : Nat) : Memory.read [] a = Config.unlistedByte := rfl

theorem Memory.read_cons (b : Nat) (w : Byte) (t : Memory) (a : Nat) :
    Memory.read ((b, w) :: t) a = if b = a then w else Memory.read t a := rfl

theorem Memory.wfFrom_cons {n lo b : Nat} {w : Byte} {t : Memory} :
    Memory.wfFrom n lo ((b, w) :: t) = true ↔
      lo ≤ b ∧ b < n ∧ w ≠ Config.unlistedByte ∧ Memory.wfFrom n (b + 1) t = true := by
  simp [Memory.wfFrom, and_assoc]

theorem Memory.wfFrom_mono {n lo lo' : Nat} {m : Memory} (h : Memory.wfFrom n lo m = true) (hl : lo' ≤ lo) :
    Memory.wfFrom n lo' m = true := by
  cases m with
  | nil => rfl
  | cons e t =>
    obtain ⟨h₁, h₂⟩ := Memory.wfFrom_cons.mp h
    exact Memory.wfFrom_cons.mpr ⟨Nat.le_trans hl h₁, h₂⟩

/-- Below the first listed index a canonical store reads as unlisted. -/
theorem Memory.read_below {n lo : Nat} {m : Memory} (h : Memory.wfFrom n lo m = true) {a : Nat} (ha : a < lo) :
    m.read a = Config.unlistedByte := by
  induction m generalizing lo with
  | nil => rfl
  | cons e t ih =>
    obtain ⟨h₁, -, -, h₄⟩ := Memory.wfFrom_cons.mp h
    rw [Memory.read_cons, if_neg (by omega)]
    exact ih h₄ (by omega)

/-- At and above its size a canonical store reads as unlisted. -/
theorem Memory.read_beyond {n lo : Nat} {m : Memory} (h : Memory.wfFrom n lo m = true) {a : Nat} (ha : n ≤ a) :
    m.read a = Config.unlistedByte := by
  induction m generalizing lo with
  | nil => rfl
  | cons e t ih =>
    obtain ⟨-, h₂, -, h₄⟩ := Memory.wfFrom_cons.mp h
    rw [Memory.read_cons, if_neg (by omega)]
    exact ih h₄

/-! ### Reading after inserting, erasing, writing -/

theorem Memory.read_insert (m : Memory) (a : Nat) (v : Byte) (x : Nat) :
    (m.insert a v).read x = if a = x then v else m.read x := by
  induction m with
  | nil => simp [Memory.insert, Memory.read_cons]
  | cons e t ih =>
    obtain ⟨b, w⟩ := e
    simp only [Memory.insert]
    split
    · simp [Memory.read_cons]
    · split
      · subst_vars
        simp only [Memory.read_cons]
        split <;> rfl
      · simp only [Memory.read_cons, ih]
        split
        · rw [if_neg (by omega)]
        · rfl

theorem Memory.read_erase {n lo : Nat} {m : Memory} (h : Memory.wfFrom n lo m = true) (a x : Nat) :
    (m.erase a).read x = if a = x then Config.unlistedByte else m.read x := by
  induction m generalizing lo with
  | nil => simp [Memory.erase]
  | cons e t ih =>
    obtain ⟨b, w⟩ := e
    obtain ⟨-, -, -, h₄⟩ := Memory.wfFrom_cons.mp h
    simp only [Memory.erase]
    split
    · rename_i he
      subst he
      split
      · subst_vars
        exact Memory.read_below h₄ (by omega)
      · rw [Memory.read_cons, if_neg (by omega)]
    · simp only [Memory.read_cons, ih h₄]
      split
      · rw [if_neg (by omega)]
      · rfl

/-- One byte changes, and only the one. -/
theorem Memory.read_write {n : Nat} {m : Memory} (h : Memory.wf n m = true) (a : Nat) (v : Byte) (x : Nat) :
    (m.write a v).read x = if a = x then v else m.read x := by
  unfold Memory.write
  split
  · subst_vars
    exact Memory.read_erase h a x
  · exact Memory.read_insert m a v x

/-! ### The canonical form -/

theorem Memory.wfFrom_insert {n lo : Nat} {m : Memory} (h : Memory.wfFrom n lo m = true) {a : Nat} {v : Byte}
    (hl : lo ≤ a) (ha : a < n) (hv : v ≠ Config.unlistedByte) :
    Memory.wfFrom n lo (m.insert a v) = true := by
  induction m generalizing lo with
  | nil => simp [Memory.insert, Memory.wfFrom, hl, ha, hv]
  | cons e t ih =>
    obtain ⟨h₁, h₂, h₃, h₄⟩ := Memory.wfFrom_cons.mp h
    simp only [Memory.insert]
    split
    · exact Memory.wfFrom_cons.mpr ⟨hl, ha, hv, Memory.wfFrom_cons.mpr ⟨by omega, h₂, h₃, h₄⟩⟩
    · split
      · subst_vars
        exact Memory.wfFrom_cons.mpr ⟨hl, ha, hv, h₄⟩
      · exact Memory.wfFrom_cons.mpr ⟨h₁, h₂, h₃, ih h₄ (by omega)⟩

theorem Memory.wfFrom_erase {n lo : Nat} {m : Memory} (h : Memory.wfFrom n lo m = true) (a : Nat) :
    Memory.wfFrom n lo (m.erase a) = true := by
  induction m generalizing lo with
  | nil => rfl
  | cons e t ih =>
    obtain ⟨h₁, h₂, h₃, h₄⟩ := Memory.wfFrom_cons.mp h
    simp only [Memory.erase]
    split
    · exact Memory.wfFrom_mono h₄ (by omega)
    · exact Memory.wfFrom_cons.mpr ⟨h₁, h₂, h₃, ih h₄⟩

/-- A write keeps the canonical form. -/
theorem Memory.wf_write {n : Nat} {m : Memory} (h : Memory.wf n m = true) {a : Nat} (ha : a < n) (v : Byte) :
    Memory.wf n (m.write a v) = true := by
  unfold Memory.write
  split
  · exact Memory.wfFrom_erase h a
  · exact Memory.wfFrom_insert h (Nat.zero_le a) ha ‹_›

/-- Taking any listing into canonical form gives the canonical form. -/
theorem Memory.wf_ofCells (n : Nat) (l : List Host.Cell) : Memory.wf n (Memory.ofCells n l) = true := by
  induction l with
  | nil => rfl
  | cons e t ih =>
    simp only [Memory.ofCells]
    split
    · exact Memory.wf_write ih ‹_› _
    · exact ih

/-- Taking a listing into canonical form keeps every byte below the size. -/
theorem Memory.read_ofCells (n : Nat) (l : List Host.Cell) {x : Nat} (hx : x < n) :
    (Memory.ofCells n l).read x = Memory.read l x := by
  induction l with
  | nil => rfl
  | cons e t ih =>
    simp only [Memory.ofCells]
    split
    · rw [Memory.read_write (Memory.wf_ofCells n t), ih]
      rfl
    · rw [ih, Memory.read_cons, if_neg (by omega)]

theorem Memory.ext_wfFrom {n n' lo : Nat} {m m' : Memory} (h : Memory.wfFrom n lo m = true)
    (h' : Memory.wfFrom n' lo m' = true) (hr : ∀ x, m.read x = m'.read x) : m = m' := by
  induction m generalizing lo m' with
  | nil =>
    cases m' with
    | nil => rfl
    | cons e t =>
      obtain ⟨-, -, h₃, -⟩ := Memory.wfFrom_cons.mp h'
      have := hr e.1
      rw [Memory.read_nil, Memory.read_cons, if_pos rfl] at this
      exact absurd this.symm h₃
  | cons e t ih =>
    obtain ⟨h₁, -, h₃, h₄⟩ := Memory.wfFrom_cons.mp h
    cases m' with
    | nil =>
      have := hr e.1
      rw [Memory.read_nil, Memory.read_cons, if_pos rfl] at this
      exact absurd this h₃
    | cons e' t' =>
      obtain ⟨h₁', -, h₃', h₄'⟩ := Memory.wfFrom_cons.mp h'
      obtain ⟨a, v⟩ := e
      obtain ⟨a', v'⟩ := e'
      have ha := hr a
      have ha' := hr a'
      simp only [Memory.read_cons, if_pos] at ha ha' h₃ h₃' h₄ h₄'
      have heq : a = a' := by
        rcases Nat.lt_trichotomy a a' with hlt | heq | hlt
        · rw [if_neg (by omega), Memory.read_below h₄' (by omega)] at ha
          exact absurd ha h₃
        · exact heq
        · rw [if_neg (by omega), Memory.read_below h₄ (by omega)] at ha'
          exact absurd ha'.symm h₃'
      subst heq
      rw [if_pos rfl] at ha
      subst ha
      congr 1
      refine ih h₄ h₄' fun x => ?_
      by_cases hx : a = x
      · subst hx
        rw [Memory.read_below h₄ (by omega), Memory.read_below h₄' (by omega)]
      · have := hr x
        rwa [Memory.read_cons, Memory.read_cons, if_neg hx, if_neg hx] at this

/-- Canonical stores that read alike are equal lists. -/
theorem Memory.ext_of_wf {n n' : Nat} {m m' : Memory} (h : Memory.wf n m = true) (h' : Memory.wf n' m' = true)
    (hr : ∀ x, m.read x = m'.read x) : m = m' :=
  Memory.ext_wfFrom h h' hr

/-! ### Images -/

@[simp] theorem Image.normal_size (im : Image) : im.normal.size = im.size := rfl

theorem Image.normal_wf (im : Image) : Memory.wf im.normal.size im.normal.cells = true :=
  Memory.wf_ofCells im.size im.cells

/-- The canonical listing of an image has its bytes. -/
@[simp] theorem Image.byte_normal (im : Image) (i : Nat) : im.normal.byte i = im.byte i := by
  unfold Image.byte
  rw [Image.normal_size]
  by_cases h : i < im.size
  · rw [if_pos h, if_pos h]
    exact Memory.read_ofCells _ _ h
  · rw [if_neg h, if_neg h]

end Sys2Proof
end

