-- ==== Sys2Proof/Laws/State.lean ====
section
/-! SUPPORT. One lemma for each field of `State` under each update of it. -/

namespace Sys2Proof.Machine

section
variable (s : State) (r : Response) (c : Option Cartridge) (b : Option Bus) (q : List Request)

@[simp] theorem State.setResponse_params : (s.setResponse r).params = s.params := rfl
@[simp] theorem State.setResponse_cart : (s.setResponse r).cart = s.cart := rfl
@[simp] theorem State.setResponse_bus : (s.setResponse r).bus = s.bus := rfl
@[simp] theorem State.setResponse_pending : (s.setResponse r).pending = s.pending := rfl
@[simp] theorem State.setResponse_response : (s.setResponse r).response = some r := rfl

@[simp] theorem State.setCart_params : (s.setCart c).params = s.params := rfl
@[simp] theorem State.setCart_cart : (s.setCart c).cart = c := rfl
@[simp] theorem State.setCart_bus : (s.setCart c).bus = s.bus := rfl
@[simp] theorem State.setCart_pending : (s.setCart c).pending = s.pending := rfl
@[simp] theorem State.setCart_response : (s.setCart c).response = s.response := rfl

@[simp] theorem State.setBus_params : (s.setBus b).params = s.params := rfl
@[simp] theorem State.setBus_cart : (s.setBus b).cart = s.cart := rfl
@[simp] theorem State.setBus_bus : (s.setBus b).bus = b := rfl
@[simp] theorem State.setBus_pending : (s.setBus b).pending = s.pending := rfl
@[simp] theorem State.setBus_response : (s.setBus b).response = s.response := rfl

@[simp] theorem State.setPending_params : (s.setPending q).params = s.params := rfl
@[simp] theorem State.setPending_cart : (s.setPending q).cart = s.cart := rfl
@[simp] theorem State.setPending_bus : (s.setPending q).bus = s.bus := rfl
@[simp] theorem State.setPending_pending : (s.setPending q).pending = q := rfl
@[simp] theorem State.setPending_response : (s.setPending q).response = s.response := rfl

end

end Sys2Proof.Machine
end

