-- ==== Sys2Proof/Laws/Ops.lean ====
section
/-! SUPPORT. For each shared operation, once, everything it can do: the provers cite these and never
unfold the operation. -/

namespace Sys2Proof.Machine

/-! ### Delivering an outcome -/

@[simp] theorem respond_next {r : Response} {s t : State} :
    respond r s = .next t ↔ t = s.setResponse r := by
  simp [respond, eq_comm]

@[simp] theorem respond_ne_refused {r : Response} {s : State} {x : Refusal} :
    respond r s ≠ .refused x := by
  simp [respond]

@[simp] theorem raise_next {f : FaultRecord} {s t : State} :
    raise f s = .next t ↔ t = s.setResponse (.fault f) := by
  simp [raise]

@[simp] theorem raise_ne_refused {f : FaultRecord} {s : State} {x : Refusal} :
    raise f s ≠ .refused x := by
  simp [raise]

/-! ### Existence -/

@[simp] theorem withCart_some {s : State} {c : Cartridge} (h : s.cart = some c)
    (k : Cartridge → Host.Outcome State Fault Refusal) : withCart s k = k c := by
  simp [withCart, h]

@[simp] theorem withCart_none {s : State} (h : s.cart = none)
    (k : Cartridge → Host.Outcome State Fault Refusal) : withCart s k = .refused .noCartridge := by
  simp [withCart, h]

@[simp] theorem withBus_some {s : State} {b : Bus} (h : s.bus = some b)
    (k : Bus → Host.Outcome State Fault Refusal) : withBus s k = k b := by
  simp [withBus, h]

@[simp] theorem withBus_none {s : State} (h : s.bus = none)
    (k : Bus → Host.Outcome State Fault Refusal) : withBus s k = .refused .noBus := by
  simp [withBus, h]

/-- An operation of the cartridge that answers a next state had one, and ran on it. -/
theorem withCart_next {s t : State} {k : Cartridge → Host.Outcome State Fault Refusal}
    (h : withCart s k = .next t) : ∃ c, s.cart = some c ∧ k c = .next t := by
  unfold withCart at h
  split at h
  · exact ⟨_, ‹_›, h⟩
  · cases h

/-- An operation of the bus that answers a next state had one, and ran on it. -/
theorem withBus_next {s t : State} {k : Bus → Host.Outcome State Fault Refusal}
    (h : withBus s k = .next t) : ∃ b, s.bus = some b ∧ k b = .next t := by
  unfold withBus at h
  split at h
  · exact ⟨_, ‹_›, h⟩
  · cases h

/-! ### Reads and writes -/

@[simp] theorem finishRead_ok (v : Byte) (s : State) :
    finishRead (.ok v) s = .next (s.setResponse (.byte v)) := rfl

@[simp] theorem finishRead_error (f : FaultRecord) (s : State) :
    finishRead (.error f) s = .next (s.setResponse (.fault f)) := rfl

@[simp] theorem finishCartWrite_ok (c : Cartridge) (s : State) :
    finishCartWrite (.ok c) s = .next ((s.setCart (some c)).setResponse .ok) := rfl

@[simp] theorem finishCartWrite_error (f : FaultRecord) (s : State) :
    finishCartWrite (.error f) s = .next (s.setResponse (.fault f)) := rfl

/-- A read changes nothing but the response. -/
theorem finishRead_next {r : Except FaultRecord Byte} {s t : State} (h : finishRead r s = .next t) :
    ∃ p, t = s.setResponse p := by
  cases r <;> simp at h <;> exact ⟨_, h.symm⟩

/-- A cartridge write leaves a cartridge and `Ok`, or raises and changes nothing but the response. -/
theorem finishCartWrite_next {r : Except FaultRecord Cartridge} {s t : State}
    (h : finishCartWrite r s = .next t) :
    (∃ c, r = .ok c ∧ t = (s.setCart (some c)).setResponse .ok) ∨
    (∃ f, r = .error f ∧ t = s.setResponse (.fault f)) := by
  cases r with
  | ok c => simp at h; exact .inl ⟨c, rfl, h.symm⟩
  | error f => simp at h; exact .inr ⟨f, rfl, h.symm⟩

@[simp] theorem finishBusWrite_next {b : Bus} {s t : State} :
    finishBusWrite b s = .next t ↔ t = (s.setBus (some b)).setResponse .ok := by
  simp [finishBusWrite]

/-! ### The lifecycle prelude -/

@[simp] theorem guardRead_loaded {c : Cartridge} {h : Header} (hl : c.life = .loaded h)
    (k : Header → Except FaultRecord Byte) : guardRead c k = k h := by
  simp [guardRead, hl]

@[simp] theorem guardRead_disposed {c : Cartridge} (hl : c.life = .disposed)
    (k : Header → Except FaultRecord Byte) :
    guardRead c k = .error ⟨.outOfRange, .cartridgeDisposed⟩ := by
  simp [guardRead, hl]

@[simp] theorem guardWrite_loaded {c : Cartridge} {h : Header} (hl : c.life = .loaded h)
    (k : Header → Except FaultRecord Cartridge) : guardWrite c k = k h := by
  simp [guardWrite, hl]

@[simp] theorem guardWrite_disposed {c : Cartridge} (hl : c.life = .disposed)
    (k : Header → Except FaultRecord Cartridge) :
    guardWrite c k = .error ⟨.invalidOperation, .cartridgeDisposed⟩ := by
  simp [guardWrite, hl]

/-- A cartridge write that succeeds is a control write or changes nothing, in a loaded cartridge. -/
theorem cartWrite_ok {c c' : Cartridge} {a : Addr} {v : Byte} (h : cartWrite c a v = .ok c') :
    (∃ hd, c.life = .loaded hd) ∧ (c' = c ∨ c' = writeBank c v) := by
  unfold cartWrite guardWrite at h
  split at h
  · refine ⟨⟨_, ‹_›⟩, ?_⟩
    split at h <;> cases h <;> simp
  · cases h

/-! ### The entry checks -/

theorem checkAddress_ok {x : AddrArg} {a : Addr} (h : checkAddress x = .ok a) :
    x = .int (a.toNat : Nat) := by
  cases x with
  | nonInteger => cases h
  | int z =>
    simp only [checkAddress] at h
    split at h
    · cases h
      congr 1
      simp only [BitVec.toNat_ofNat]
      omega
    · cases h

@[simp] theorem checkAddress_int (a : Addr) : checkAddress (.int (a.toNat : Nat)) = .ok a := by
  have h := a.isLt
  simp only [checkAddress]
  rw [if_pos (by omega)]
  simp

@[simp] theorem requestOf_addr (p : Packet) :
    (requestOf p).addr = .int ((wordAddr p.word).toNat : Nat) := by
  have h := slice_lt 15 0 p.word
  simp only [requestOf, wordAddr, BitVec.toNat_ofNat]
  congr 2
  omega

@[simp] theorem requestOf_sel (p : Packet) : (requestOf p).sel = wordSel p.word := rfl

@[simp] theorem maskData_toNat (v : Byte) : maskData v.toNat = v := by
  have h := v.isLt
  apply BitVec.eq_of_toNat_eq
  simp only [maskData, BitVec.toNat_ofNat]
  omega

/-- A request made of a packet is that packet again, once its address is checked. -/
@[simp] theorem packetAt_requestOf (p : Packet) :
    packetAt (requestOf p) (wordAddr p.word) = p := by
  have hm := makeWord_fields p.word
  have hd := maskData_toNat p.data
  cases p
  simp only [packetAt, requestOf] at hm hd ⊢
  rw [hm, hd]

end Sys2Proof.Machine
end

