-- ==== Sys2Proof/Laws/Header.lean ====
section
/-! SUPPORT. The header decoder: what its success says, and that it depends on an image's length and
bytes alone. -/

namespace Sys2Proof.Machine

/-- A code's entry is the first pair that names it. -/
theorem lookupCode_eq_find {α : Type} (t : List (Byte × α)) (b : Byte) :
    lookupCode t b = (t.find? fun x => x.1 == b).map Prod.snd := by
  induction t with
  | nil => rfl
  | cons e t ih =>
    simp only [lookupCode, List.find?_cons, ih]
    by_cases h : e.1 = b
    · simp [h]
    · rw [if_neg h, beq_false_of_ne h]

/-- R6: in every configuration some code is decoded to each of the four required types. -/
theorem exists_code_of_requiredType (p : Params) {tag : CartType} (h : tag ∈ requiredTypes) :
    ∃ b, lookupCode p.cartTypeTable.val b = some tag := by
  have ht := List.all_eq_true.mp p.cartTypeTable.property tag h
  obtain ⟨e, -, he⟩ := List.any_eq_true.mp ht
  exact ⟨e.1, by rw [lookupCode_eq_find]; exact eq_of_beq he⟩

/-- A header that is decoded is the record of R110, from an image long enough and three known codes. -/
theorem parseHeader_ok {p : Params} {im : Image} {h : Header} (hp : parseHeader p im = .ok h) :
    Config.hdrMin ≤ im.size ∧
    lookupCode p.cartTypeTable.val (im.byte 0x147) = some h.type ∧
    lookupCode p.romSizeTable (im.byte 0x148) = some h.romBanks ∧
    lookupCode p.ramSizeTable (im.byte 0x149) = some h.ramBanks ∧
    h.title = title p im ∧ h.cgbFlag = cgbFlag im ∧ h.sgbFlag = sgbFlag p im ∧
    h.headerChecksumOK = headerChecksumOK p im := by
  unfold parseHeader at hp
  split at hp
  · cases hp
  · split at hp
    · cases hp
    · split at hp
      · cases hp
      · split at hp
        · cases hp
        · cases hp
          exact ⟨by omega, ‹_›, ‹_›, ‹_›, rfl, rfl, rfl, rfl⟩

theorem checksumAfter_normal (im : Image) (k : Nat) :
    checksumAfter im.normal k = checksumAfter im k := by
  induction k with
  | zero => rfl
  | succ k ih => simp [checksumAfter, ih]

theorem titleScan_normal (im : Image) (i n : Nat) :
    titleScan im.normal i n = titleScan im i n := by
  induction n generalizing i with
  | zero => rfl
  | succ n ih => simp [titleScan, ih]

/-- The canonical listing of an image decodes as the image does. -/
theorem parseHeader_normal (p : Params) (im : Image) : parseHeader p im.normal = parseHeader p im := by
  simp only [parseHeader, title, titleLimit, cgbFlag, sgbFlag, headerChecksumOK, checksum,
    checksumAfter_normal, titleScan_normal, Image.byte_normal, Image.normal_size]
  rfl

/-- A title is no longer than its limit before it is trimmed. -/
theorem titleScan_length (im : Image) (i n : Nat) : (titleScan im i n).length ≤ n := by
  induction n generalizing i with
  | zero => simp [titleScan]
  | succ n ih =>
    simp only [titleScan]
    split
    · simp
    · simpa using ih (i + 1)

end Sys2Proof.Machine
end

