-- ==== Sys2Proof/Laws/Exec.lean ====
section
/-! SUPPORT. What an instruction can do to the state, said once: the inversion lemma of `exec`, from
which an invariant is a short case analysis. -/

namespace Sys2Proof.Machine

/-- The next states `exec` can answer. Every instruction but those named assigns nothing. -/
inductive ExecEffect (s : State) : Instr → State → Prop where
  | answer (i : Instr) (p : Response) : ExecEffect s i (s.setResponse p)
  | bank (i : Instr) (c : Cartridge) (h : Header) (a : Addr) (v : Byte) :
      s.cart = some c → c.life = .loaded h →
      (i = .cartWrBank a v ∨ ((i = .busWrCart a v ∨ i = .busWrEram a v) ∧ cartWriteRegion a = .bank)) →
      ExecEffect s i ((s.setCart (some (writeBank c v))).setResponse .ok)
  | wram (b : Bus) (a : Addr) (v : Byte) : s.bus = some b →
      ExecEffect s (.busWrWram a v)
        ((s.setBus (some { b with wram := b.wram.write (wramIndex a) v })).setResponse .ok)
  | echo (b : Bus) (a : Addr) (v : Byte) : s.bus = some b →
      ExecEffect s (.busWrEcho a v)
        ((s.setBus (some { b with wram := b.wram.write (echoIndex a) v })).setResponse .ok)
  | hram (b : Bus) (a : Addr) (v : Byte) : s.bus = some b →
      ExecEffect s (.busWrHram a v)
        ((s.setBus (some { b with hram := b.hram.write (hramIndex a) v })).setResponse .ok)
  | ie (b : Bus) (v : Byte) : s.bus = some b →
      ExecEffect s (.busWrIe v) ((s.setBus (some { b with ie := v })).setResponse .ok)
  | load (im : Image) (h : Header) : parseHeader s.params im = .ok h →
      ExecEffect s (.hostLoad im) (((s.setCart (some
        { rom := im.normal, bank := Config.bankReset, life := .loaded h })).setBus none).setResponse .ok)
  | loadFault (im : Image) (f : FaultRecord) : parseHeader s.params im = .error f →
      ExecEffect s (.hostLoad im) (((s.setCart none).setBus none).setResponse (.fault f))
  | attach (c : Cartridge) (ram : RamInit) : s.cart = some c →
      ExecEffect s (.hostAttach ram) ((s.setBus (some
        { wram := Memory.ofCells Config.wramSize ram.wram0
          hram := Memory.ofCells Config.hramSize ram.hram0
          ie := ram.ie0 })).setResponse .ok)
  | dispose (c : Cartridge) : s.cart = some c →
      ExecEffect s .hostDispose ((s.setCart (some
        { rom := Image.empty, bank := Config.bankReset, life := .disposed })).setResponse .ok)

/-- Setting the cartridge a state has changes nothing. -/
theorem State.setCart_self {s : State} {c : Cartridge} (h : s.cart = some c) : s.setCart (some c) = s := by
  cases s
  simp only at h
  rw [h]
  rfl

theorem effect_of_cartWrite {s t : State} {c : Cartridge} {a : Addr} {v : Byte} {i : Instr}
    (hc : s.cart = some c) (hi : i = .busWrCart a v ∨ i = .busWrEram a v)
    (h : finishCartWrite (cartWrite c a v) s = .next t) : ExecEffect s i t := by
  unfold cartWrite at h
  cases hl : c.life with
  | disposed =>
    simp [guardWrite_disposed hl] at h
    exact h ▸ .answer i _
  | loaded hd =>
    rw [guardWrite_loaded hl] at h
    cases hr : cartWriteRegion a <;> simp [hr] at h <;> subst h
    case bank => exact .bank i c hd a v hc hl (.inr ⟨hi, hr⟩)
    case eram =>
      rw [State.setCart_self hc]
      exact .answer i _
    all_goals exact .answer i _

theorem effect_of_guardWrite {s t : State} {c : Cartridge} {i : Instr} {f : FaultRecord}
    (h : finishCartWrite (guardWrite c fun _ => .error f) s = .next t) : ExecEffect s i t := by
  obtain ⟨c', hc, -⟩ | ⟨f', -, rfl⟩ := finishCartWrite_next h
  · unfold guardWrite at hc
    split at hc <;> cases hc
  · exact .answer i _

/-- The inversion lemma of `exec`. -/
theorem exec_next {i : Instr} {s t : State} (h : exec i s = .next t) : ExecEffect s i t := by
  cases i <;> simp only [exec] at h
  case busRdCart a =>
    obtain ⟨b, -, h⟩ := withBus_next h
    obtain ⟨c, -, h⟩ := withCart_next h
    obtain ⟨p, rfl⟩ := finishRead_next h
    exact .answer _ p
  case busRdEram a =>
    obtain ⟨b, -, h⟩ := withBus_next h
    obtain ⟨c, -, h⟩ := withCart_next h
    obtain ⟨p, rfl⟩ := finishRead_next h
    exact .answer _ p
  case busRdStub | busRdWram | busRdEcho | busRdHram | busRdIe | busWrStub =>
    obtain ⟨b, -, h⟩ := withBus_next h
    obtain rfl := respond_next.mp h
    exact .answer _ _
  case busWrCart a v =>
    obtain ⟨b, -, h⟩ := withBus_next h
    obtain ⟨c, hc, h⟩ := withCart_next h
    exact effect_of_cartWrite hc (.inl rfl) h
  case busWrEram a v =>
    obtain ⟨b, -, h⟩ := withBus_next h
    obtain ⟨c, hc, h⟩ := withCart_next h
    exact effect_of_cartWrite hc (.inr rfl) h
  case busWrWram a v =>
    obtain ⟨b, hb, h⟩ := withBus_next h
    obtain rfl := finishBusWrite_next.mp h
    exact .wram b a v hb
  case busWrEcho a v =>
    obtain ⟨b, hb, h⟩ := withBus_next h
    obtain rfl := finishBusWrite_next.mp h
    exact .echo b a v hb
  case busWrHram a v =>
    obtain ⟨b, hb, h⟩ := withBus_next h
    obtain rfl := finishBusWrite_next.mp h
    exact .hram b a v hb
  case busWrIe v =>
    obtain ⟨b, hb, h⟩ := withBus_next h
    obtain rfl := finishBusWrite_next.mp h
    exact .ie b v hb
  case cartRdRom0 | cartRdRomx | cartRdEram | cartRdOor =>
    obtain ⟨c, -, h⟩ := withCart_next h
    obtain ⟨p, rfl⟩ := finishRead_next h
    exact .answer _ p
  case cartWrRomlo | cartWrRomx | cartWrOor =>
    obtain ⟨c, -, h⟩ := withCart_next h
    exact effect_of_guardWrite h
  case cartWrBank a v =>
    obtain ⟨c, hc, h⟩ := withCart_next h
    cases hl : c.life with
    | disposed =>
      simp [guardWrite_disposed hl] at h
      exact h ▸ .answer _ _
    | loaded hd =>
      simp [guardWrite_loaded hl] at h
      exact h ▸ .bank _ c hd a v hc hl (.inl rfl)
  case cartWrEram a v =>
    obtain ⟨c, hc, h⟩ := withCart_next h
    cases hl : c.life with
    | disposed =>
      simp [guardWrite_disposed hl] at h
      exact h ▸ .answer _ _
    | loaded hd =>
      simp [guardWrite_loaded hl, State.setCart_self hc] at h
      exact h ▸ .answer _ _
  case hostHdr im =>
    unfold execHostHdr at h
    split at h
    · obtain rfl := respond_next.mp h
      exact .answer _ _
    · obtain rfl := raise_next.mp h
      exact .answer _ _
  case hostLoad im =>
    unfold execHostLoad at h
    split at h
    · obtain rfl := respond_next.mp h
      exact .load im _ ‹_›
    · obtain rfl := raise_next.mp h
      exact .loadFault im _ ‹_›
  case hostAttach ram =>
    obtain ⟨c, hc, h⟩ := withCart_next h
    obtain rfl := finishBusWrite_next.mp h
    exact .attach c ram hc
  case hostDispose =>
    obtain ⟨c, hc, h⟩ := withCart_next h
    obtain rfl := respond_next.mp h
    exact .dispose c hc
  case hostRomsize =>
    obtain ⟨c, -, h⟩ := withCart_next h
    obtain rfl := respond_next.mp h
    exact .answer _ _

end Sys2Proof.Machine
end

