-- ==== Sys2Proof/Laws/PerInstr.lean ====
section
/-! SUPPORT. Facts about each instruction as syntax, one lemma for each constructor. `InTable`: the
instruction's mnemonic is one of the opcode table (spec/30_encoding.md R96). -/

namespace Sys2Proof.Laws

/-- The instruction's mnemonic stands in the opcode table. -/
def InTable.Statement (i : Instr) : Prop := opcodeTable.any (fun r => r.mnemonic == i.mnemonic) = true

theorem InTable.busRdCart (a : Addr) : InTable.Statement (.busRdCart a) := rfl
theorem InTable.busRdStub (a : Addr) : InTable.Statement (.busRdStub a) := rfl
theorem InTable.busRdEram (a : Addr) : InTable.Statement (.busRdEram a) := rfl
theorem InTable.busRdWram (a : Addr) : InTable.Statement (.busRdWram a) := rfl
theorem InTable.busRdEcho (a : Addr) : InTable.Statement (.busRdEcho a) := rfl
theorem InTable.busRdHram (a : Addr) : InTable.Statement (.busRdHram a) := rfl
theorem InTable.busRdIe : InTable.Statement .busRdIe := rfl
theorem InTable.busWrCart (a : Addr) (v : Byte) : InTable.Statement (.busWrCart a v) := rfl
theorem InTable.busWrStub (a : Addr) (v : Byte) : InTable.Statement (.busWrStub a v) := rfl
theorem InTable.busWrEram (a : Addr) (v : Byte) : InTable.Statement (.busWrEram a v) := rfl
theorem InTable.busWrWram (a : Addr) (v : Byte) : InTable.Statement (.busWrWram a v) := rfl
theorem InTable.busWrEcho (a : Addr) (v : Byte) : InTable.Statement (.busWrEcho a v) := rfl
theorem InTable.busWrHram (a : Addr) (v : Byte) : InTable.Statement (.busWrHram a v) := rfl
theorem InTable.busWrIe (v : Byte) : InTable.Statement (.busWrIe v) := rfl
theorem InTable.cartRdRom0 (a : Addr) : InTable.Statement (.cartRdRom0 a) := rfl
theorem InTable.cartRdRomx (a : Addr) : InTable.Statement (.cartRdRomx a) := rfl
theorem InTable.cartRdOor (a : Addr) : InTable.Statement (.cartRdOor a) := rfl
theorem InTable.cartRdEram (a : Addr) : InTable.Statement (.cartRdEram a) := rfl
theorem InTable.cartWrRomlo (a : Addr) (v : Byte) : InTable.Statement (.cartWrRomlo a v) := rfl
theorem InTable.cartWrBank (a : Addr) (v : Byte) : InTable.Statement (.cartWrBank a v) := rfl
theorem InTable.cartWrRomx (a : Addr) (v : Byte) : InTable.Statement (.cartWrRomx a v) := rfl
theorem InTable.cartWrOor (a : Addr) (v : Byte) : InTable.Statement (.cartWrOor a v) := rfl
theorem InTable.cartWrEram (a : Addr) (v : Byte) : InTable.Statement (.cartWrEram a v) := rfl
theorem InTable.hostHdr (rom : Image) : InTable.Statement (.hostHdr rom) := rfl
theorem InTable.hostLoad (rom : Image) : InTable.Statement (.hostLoad rom) := rfl
theorem InTable.hostAttach (ram : RamInit) : InTable.Statement (.hostAttach ram) := rfl
theorem InTable.hostDispose : InTable.Statement .hostDispose := rfl
theorem InTable.hostRomsize : InTable.Statement .hostRomsize := rfl

end Sys2Proof.Laws
end

