-- ==== Sys2Proof/Laws/Step.lean ====
section
/-! SUPPORT. What a step can do to the state, said once: the inversion lemma of `step`, and the runs of
several steps taken apart. -/

namespace Sys2Proof.Machine

/-- What serving a request can do: answer the fault of its entry check, or run the instruction its
packet decodes to. -/
theorem serve_next {r : Request} {s t : State} (h : serve r s = .next t) :
    (∃ f, t = s.setResponse (.fault f)) ∨
    ∃ a i, decode (packetAt r a) = .ok i ∧ (r.sel.toNat < 4 → r.addr = .int (a.toNat : Nat)) ∧
      exec i s = .next t := by
  unfold serve at h
  split at h
  case h_2 => exact .inl ⟨_, raise_next.mp h⟩
  case h_3 => cases h
  case h_1 i hi =>
    refine .inr ?_
    have packet : ∀ {a}, acceptPacket (packetAt r a) = .instr i → decode (packetAt r a) = .ok i := by
      intro a ha
      unfold acceptPacket at ha
      split at ha <;> cases ha
      assumption
    have addressed : acceptAddressed r = .instr i →
        ∃ a, decode (packetAt r a) = .ok i ∧ r.addr = .int (a.toNat : Nat) := by
      intro ha
      unfold acceptAddressed at ha
      split at ha
      · exact ⟨_, packet ha, checkAddress_ok ‹_›⟩
      · cases ha
    unfold accept at hi
    split at hi
    · split at hi
      · obtain ⟨a, hd, ha⟩ := addressed hi
        exact ⟨a, i, hd, fun _ => ha, h⟩
      · cases hi
    · split at hi
      · split at hi
        · obtain ⟨a, hd, ha⟩ := addressed hi
          exact ⟨a, i, hd, fun _ => ha, h⟩
        · cases hi
      · exact ⟨0, i, packet hi, fun hs => absurd hs ‹_›, h⟩

/-- The inversion lemma of `step`. -/
theorem step_next {s t : State} (h : step s = .next t) :
    (s.pending = [] ∧ t = s) ∨
    ∃ r rest, s.pending = r :: rest ∧
      ((∃ f, t = (s.setPending rest).setResponse (.fault f)) ∨
        ∃ a i, decode (packetAt r a) = .ok i ∧ (r.sel.toNat < 4 → r.addr = .int (a.toNat : Nat)) ∧
          exec i (s.setPending rest) = .next t) := by
  unfold step at h
  split at h
  · cases h
    exact .inl ⟨‹_›, rfl⟩
  · exact .inr ⟨_, _, ‹_›, serve_next h⟩

/-- A step with a transaction waiting is the serving of it. -/
theorem step_cons {s : State} {r : Request} {rest : List Request} (h : s.pending = r :: rest) :
    step s = serve r (s.setPending rest) := by
  simp [step, h]

/-- A run of one more step takes that step first, on any machine. -/
theorem run_succ_next_of {M : Host.Core} {k : Nat} {s t : M.State} (h : M.run (k + 1) s = .next t) :
    ∃ u, M.step s = .next u ∧ M.run k u = .next t := by
  unfold Host.Core.run at h
  split at h
  · exact ⟨_, ‹_›, h⟩
  · cases h
  · cases h

/-- A run of one more step of this machine takes that step first. -/
theorem run_succ_next {k : Nat} {s t : State} (h : Host.Core.run core (k + 1) s = .next t) :
    ∃ u, step s = .next u ∧ Host.Core.run core k u = .next t :=
  run_succ_next_of (M := core) h

/-- A run that starts with a step that answers goes on from its state, on any machine. -/
theorem run_succ_of {M : Host.Core} {k : Nat} {s u : M.State} (h : M.step s = .next u) :
    M.run (k + 1) s = M.run k u := by
  simp [Host.Core.run, h]

/-- A run of this machine that starts with a step that answers goes on from its state. -/
theorem run_succ {k : Nat} {s u : State} (h : step s = .next u) :
    Host.Core.run core (k + 1) s = Host.Core.run core k u :=
  run_succ_of (M := core) h

end Sys2Proof.Machine
end

