-- ==== Sys2Proof/Tests/Slice0.lean ====
section
/-! SUPPORT. The model's own tests. Expected results are taken from spec/95_test_vectors.md (named V1
to V16, or by section), from the encoding of spec/30_encoding.md R80 to R83 written out bit by bit, or
from the reset values of spec/10_state.md R37. Last come the witnesses: for each statement that has
hypotheses, states and operands that meet them all. -/

namespace Sys2Proof.Tests

open Sys2Proof Sys2Proof.Machine

/-! ### Small states -/

/-- Sampled bytes of the test image `T4` (95_test_vectors.md section 0): four banks, the first and
last byte of each, and the header. -/
def t4 : Image where
  size := 0x10000
  cells :=
    [(0x0000, 0xB0), (0x0134, 0x54), (0x0135, 0x45), (0x0136, 0x53), (0x0137, 0x54), (0x0147, 0x01),
     (0x0148, 0x01), (0x014D, 0xA6), (0x3FFF, 0xB0), (0x4000, 0xB1), (0x7FFF, 0xB1), (0x8000, 0xB2),
     (0xBFFF, 0xB2), (0xC000, 0xB3), (0xFFFF, 0xB3)]

/-- What `T4` "decodes to" (section 0). -/
def t4Header : Header where
  title := [0x54, 0x45, 0x53, 0x54]
  type := .mbc1
  romBanks := ⟨4, by decide⟩
  ramBanks := 0
  cgbFlag := 0x00
  sgbFlag := 0x00
  headerChecksumOK := true

/-- The test image `S150` (section 0). -/
def s150 : Image := ⟨0x150, [(0x0000, 0xC3), (0x014D, 0xE8), (0x014F, 0x99)]⟩

/-- Sampled bytes of the test image `T8S` (section 0): one bank and a half, declared as eight. -/
def t8s : Image where
  size := 0x6000
  cells :=
    [(0x0000, 0xB0), (0x0134, 0x53), (0x0135, 0x48), (0x0136, 0x4F), (0x0137, 0x52), (0x0138, 0x54),
     (0x0147, 0x01), (0x0148, 0x02), (0x014D, 0x55), (0x4000, 0xB1), (0x5FFF, 0xB1)]

/-- The image `TOOSHORT` (section 0). -/
def tooShort : Image := ⟨0x14F, []⟩

/-- An image whose bytes from 0x134 are `title` and whose byte 0x143 is `flag` (section 2.1). -/
def titled (title : List Byte) (flag : Byte) : Image :=
  ⟨0x8000, (List.range title.length).map (fun k => 0x134 + k) |>.zip title |>.cons (0x143, flag)⟩

def t4Cart : Cartridge := { rom := t4, bank := 1, life := .loaded t4Header }

def someBus : Bus := { wram := [(0x10, 0x42), (0x1DFF, 0xA5)], hram := [(0x00, 0x11), (0x7E, 0x22)], ie := 0xE5 }

/-- `T4` loaded, with a bus. -/
def loaded : State :=
  { params := Config.defaults, cart := some t4Cart, bus := some someBus, pending := [], response := none }

/-- `loaded` with the bank register at `k`. -/
def banked (k : BitVec 5) : State := { loaded with cart := some { t4Cart with bank := k } }

def disposedCart : Cartridge := { rom := Image.empty, bank := 1, life := .disposed }

/-- `loaded` after HOST.DISPOSE. -/
def disposed : State := { loaded with cart := some disposedCart }

/-- `T4` loaded, before HOST.ATTACH. -/
def noBus : State := { loaded with bus := none }

/-- Before any HOST.LOAD. -/
def bare : State := { loaded with cart := none, bus := none }

/-- `T8S` loaded, with the bank register at `k`. -/
def shortImage (k : BitVec 5) : State :=
  { loaded with cart := some { rom := t8s, bank := k, life := .loaded { t4Header with romBanks := ⟨8, by decide⟩ } } }

/-- A request with no byte sequence and a blank draw. -/
def request (sel : Sel) (addr : AddrArg) (data : Nat) : Request :=
  { sel := sel, addr := addr, data := data, rom := Image.empty, ram := RamInit.blank }

/-- `s` with the requests `q` waiting. -/
def issue (s : State) (q : List Request) : State := { s with pending := q }

/-- What an outcome hands to the caller, if it is a next state. -/
def answer : Host.Outcome State Fault Refusal → Option Response
  | .next t => t.response
  | .fault _ => none
  | .refused _ => none

/-- The next state, with the response taken out, so that a test can say that nothing else changed. -/
def silent : Host.Outcome State Fault Refusal → Option State
  | .next t => some { t with response := none }
  | .fault _ => none
  | .refused _ => none

/-- The refusal, if the outcome is one. -/
def refusal : Host.Outcome State Fault Refusal → Option Refusal
  | .next _ => none
  | .fault _ => none
  | .refused r => some r

/-! ### WellFormed: an ill-formed term for each check -/

theorem test_wf_busRdCart : (Instr.busRdCart 0x8000).wf = false := by decide
theorem test_wf_busRdStub_low : (Instr.busRdStub 0xA000).wf = false := by decide
theorem test_wf_busRdStub_high : (Instr.busRdStub 0xFDFF).wf = false := by decide
theorem test_wf_busRdEram : (Instr.busRdEram 0x9FFF).wf = false := by decide
theorem test_wf_busRdWram : (Instr.busRdWram 0xE000).wf = false := by decide
theorem test_wf_busRdEcho : (Instr.busRdEcho 0xFE00).wf = false := by decide
theorem test_wf_busRdHram : (Instr.busRdHram 0xFFFF).wf = false := by decide
theorem test_wf_busWrCart : (Instr.busWrCart 0x8000 0).wf = false := by decide
theorem test_wf_busWrStub_low : (Instr.busWrStub 0x7FFF 0).wf = false := by decide
theorem test_wf_busWrStub_high : (Instr.busWrStub 0xFF80 0).wf = false := by decide
theorem test_wf_busWrEram : (Instr.busWrEram 0xC000 0).wf = false := by decide
theorem test_wf_busWrWram : (Instr.busWrWram 0xBFFF 0).wf = false := by decide
theorem test_wf_busWrEcho : (Instr.busWrEcho 0xDFFF 0).wf = false := by decide
theorem test_wf_busWrHram : (Instr.busWrHram 0xFF7F 0).wf = false := by decide
theorem test_wf_cartRdRom0 : (Instr.cartRdRom0 0x4000).wf = false := by decide
theorem test_wf_cartRdRomx : (Instr.cartRdRomx 0x3FFF).wf = false := by decide
theorem test_wf_cartRdOor : (Instr.cartRdOor 0xA000).wf = false := by decide
theorem test_wf_cartRdEram : (Instr.cartRdEram 0xC000).wf = false := by decide
theorem test_wf_cartWrRomlo : (Instr.cartWrRomlo 0x2000 0).wf = false := by decide
theorem test_wf_cartWrBank : (Instr.cartWrBank 0x1FFF 0).wf = false := by decide
theorem test_wf_cartWrRomx : (Instr.cartWrRomx 0x8000 0).wf = false := by decide
theorem test_wf_cartWrOor : (Instr.cartWrOor 0xBFFF 0).wf = false := by decide
theorem test_wf_cartWrEram : (Instr.cartWrEram 0x9FFF 0).wf = false := by decide

/-! ### Decode: one word for each constructor, its selector and address bits written out -/

theorem test_decode_busRdCart :
    decode (Packet.ofWord 0b00000111111111111111) = .ok (.busRdCart 0x7FFF) := rfl
theorem test_decode_busRdStub :
    decode (Packet.ofWord 0b00001111111101111111) = .ok (.busRdStub 0xFF7F) := rfl
theorem test_decode_busRdEram :
    decode (Packet.ofWord 0b00001010000000000000) = .ok (.busRdEram 0xA000) := rfl
theorem test_decode_busRdWram :
    decode (Packet.ofWord 0b00001101111111111111) = .ok (.busRdWram 0xDFFF) := rfl
theorem test_decode_busRdEcho :
    decode (Packet.ofWord 0b00001111110111111111) = .ok (.busRdEcho 0xFDFF) := rfl
theorem test_decode_busRdHram :
    decode (Packet.ofWord 0b00001111111111111110) = .ok (.busRdHram 0xFFFE) := rfl
theorem test_decode_busRdIe :
    decode (Packet.ofWord 0b00001111111111111111) = .ok .busRdIe := rfl
theorem test_decode_busWrCart :
    decode { Packet.ofWord 0b00010011111111111111 with data := 0xE3 } = .ok (.busWrCart 0x3FFF 0xE3) := rfl
theorem test_decode_busWrStub :
    decode { Packet.ofWord 0b00011111111000000000 with data := 0x5A } = .ok (.busWrStub 0xFE00 0x5A) := rfl
theorem test_decode_busWrEram :
    decode { Packet.ofWord 0b00011011111111111111 with data := 0x12 } = .ok (.busWrEram 0xBFFF 0x12) := rfl
theorem test_decode_busWrWram :
    decode { Packet.ofWord 0b00011100000000000000 with data := 0x77 } = .ok (.busWrWram 0xC000 0x77) := rfl
theorem test_decode_busWrEcho :
    decode { Packet.ofWord 0b00011110000000010000 with data := 0x43 } = .ok (.busWrEcho 0xE010 0x43) := rfl
theorem test_decode_busWrHram :
    decode { Packet.ofWord 0b00011111111110000000 with data := 0x11 } = .ok (.busWrHram 0xFF80 0x11) := rfl
theorem test_decode_busWrIe :
    decode { Packet.ofWord 0b00011111111111111111 with data := 0xE5 } = .ok (.busWrIe 0xE5) := rfl
theorem test_decode_cartRdRom0 :
    decode (Packet.ofWord 0b00100011111111111111) = .ok (.cartRdRom0 0x3FFF) := rfl
theorem test_decode_cartRdRomx :
    decode (Packet.ofWord 0b00100100000000000000) = .ok (.cartRdRomx 0x4000) := rfl
theorem test_decode_cartRdOor :
    decode (Packet.ofWord 0b00101100000000000000) = .ok (.cartRdOor 0xC000) := rfl
theorem test_decode_cartRdEram :
    decode (Packet.ofWord 0b00101011111111111111) = .ok (.cartRdEram 0xBFFF) := rfl
theorem test_decode_cartWrRomlo :
    decode { Packet.ofWord 0b00110001111111111111 with data := 0x0A } = .ok (.cartWrRomlo 0x1FFF 0x0A) := rfl
theorem test_decode_cartWrBank :
    decode { Packet.ofWord 0b00110010000000000000 with data := 0x02 } = .ok (.cartWrBank 0x2000 0x02) := rfl
theorem test_decode_cartWrRomx :
    decode { Packet.ofWord 0b00110111111111111111 with data := 0x01 } = .ok (.cartWrRomx 0x7FFF 0x01) := rfl
theorem test_decode_cartWrOor :
    decode { Packet.ofWord 0b00111000000000000000 with data := 0x99 } = .ok (.cartWrOor 0x8000 0x99) := rfl
theorem test_decode_cartWrEram :
    decode { Packet.ofWord 0b00111010000000000000 with data := 0x12 } = .ok (.cartWrEram 0xA000 0x12) := rfl
theorem test_decode_hostHdr :
    decode { Packet.ofWord 0b01000000000000000000 with rom := s150 } = .ok (.hostHdr s150) := rfl
theorem test_decode_hostLoad :
    decode { Packet.ofWord 0b01010000000000000001 with rom := s150 } = .ok (.hostLoad s150) := rfl
theorem test_decode_hostAttach :
    decode { Packet.ofWord 0b01100000000000000000 with ram := ⟨[], [], 0x5A⟩ } = .ok (.hostAttach ⟨[], [], 0x5A⟩) := rfl
theorem test_decode_hostDispose :
    decode (Packet.ofWord 0b01110000000000000000) = .ok .hostDispose := rfl
theorem test_decode_hostRomsize :
    decode (Packet.ofWord 0b10001111111111111111) = .ok .hostRomsize := rfl
theorem test_decode_reserved_low :
    decode (Packet.ofWord 0b10010000000000000000) = .error (.reservedSelector 0x9) := rfl
theorem test_decode_reserved_high :
    decode (Packet.ofWord 0b11111111111111111111) = .error (.reservedSelector 0xF) := rfl

/-! ### Instructions, one step each -/

/-- P1 lines 4 to 6: bank 2 shows at the switchable window, the fixed window stays bank 0. -/
theorem test_busRdCart_windows :
    answer (exec (.busRdCart 0x7FFF) (banked 2)) = some (.byte 0xB2) ∧
    answer (exec (.busRdCart 0x3FFF) (banked 2)) = some (.byte 0xB0) := by decide

/-- V4, V3 and P1 line 16: the bank register 5, 0 and 31 with four banks. -/
theorem test_busRdCart_wraps :
    answer (exec (.busRdCart 0x4000) (banked 5)) = some (.byte 0xB1) ∧
    answer (exec (.busRdCart 0x4000) (banked 0)) = some (.byte 0xB1) ∧
    answer (exec (.busRdCart 0x4000) (banked 31)) = some (.byte 0xB3) := by decide

/-- V7. -/
theorem test_busRdStub :
    answer (exec (.busRdStub 0xFEA0) loaded) = some (.byte 0xFF) ∧
    answer (exec (.busRdStub 0x8000) disposed) = some (.byte 0xFF) := by decide

/-- V12, and section 2.6 after disposal. -/
theorem test_busRdEram :
    answer (exec (.busRdEram 0xA000) loaded) = some (.byte 0xFF) ∧
    answer (exec (.busRdEram 0xBFFF) disposed) = some (.fault ⟨.outOfRange, .cartridgeDisposed⟩) := by
  decide

/-- Section 2.6: `RD 0xC010 -> 0x42` after disposal. -/
theorem test_busRdWram : answer (exec (.busRdWram 0xC010) disposed) = some (.byte 0x42) := by decide

/-- P2: the echo of index 0x1DFF, the last that has one. -/
theorem test_busRdEcho : answer (exec (.busRdEcho 0xFDFF) loaded) = some (.byte 0xA5) := by decide

/-- P2 lines 13 and 14. -/
theorem test_busRdHram :
    answer (exec (.busRdHram 0xFF80) loaded) = some (.byte 0x11) ∧
    answer (exec (.busRdHram 0xFFFE) loaded) = some (.byte 0x22) := by decide

/-- P2 line 15. -/
theorem test_busRdIe : answer (exec .busRdIe loaded) = some (.byte 0xE5) := by decide

/-- V5 and section 2.4: both sides of the control window. -/
theorem test_busWrCart :
    answer (exec (.busWrCart 0x1FFF 0x02) loaded) = some (.fault ⟨.invalidOperation, .writeToRom⟩) ∧
    silent (exec (.busWrCart 0x3FFF 0xE3) loaded) = some (banked 3) ∧
    silent (exec (.busWrCart 0x4000 0x02) (banked 3)) = some (banked 3) := by decide

/-- V7: a stub write alters nothing. -/
theorem test_busWrStub : silent (exec (.busWrStub 0xFE00 0x12) loaded) = some loaded := by decide

/-- V12, and section 2.6 after disposal. -/
theorem test_busWrEram :
    silent (exec (.busWrEram 0xA000 0x12) loaded) = some loaded ∧
    answer (exec (.busWrEram 0xA000 0x00) disposed) =
      some (.fault ⟨.invalidOperation, .cartridgeDisposed⟩) := by decide

/-- V6 and section 2.6: index 0x10 is written in place. -/
theorem test_busWrWram : silent (exec (.busWrWram 0xC010 0x43) loaded) =
    some { loaded with bus := some { someBus with wram := [(0x10, 0x43), (0x1DFF, 0xA5)] } } := by decide

/-- V6: 0xFDFF is index 0x1DFF; storing the unlisted byte takes the pair out. -/
theorem test_busWrEcho : silent (exec (.busWrEcho 0xFDFF 0x00) loaded) =
    some { loaded with bus := some { someBus with wram := [(0x10, 0x42)] } } := by decide

/-- P2 line 11, with another byte. -/
theorem test_busWrHram : silent (exec (.busWrHram 0xFFFE 0x23) loaded) =
    some { loaded with bus := some { someBus with hram := [(0x00, 0x11), (0x7E, 0x23)] } } := by decide

/-- Section 2.4: all 8 bits are kept. -/
theorem test_busWrIe : silent (exec (.busWrIe 0xFF) loaded) =
    some { loaded with bus := some { someBus with ie := 0xFF } } := by decide

/-- Sections 2.3 and 2.5. -/
theorem test_cartRdRom0 :
    answer (exec (.cartRdRom0 0x0134) noBus) = some (.byte 0x54) ∧
    answer (exec (.cartRdRom0 0x0150) { noBus with cart := some { t4Cart with rom := s150 } }) =
      some (.byte 0xFF) := by decide

/-- P4 lines 4, 5, 8 and 11: the end of a short image. -/
theorem test_cartRdRomx :
    answer (exec (.cartRdRomx 0x5FFF) (shortImage 1)) = some (.byte 0xB1) ∧
    answer (exec (.cartRdRomx 0x6000) (shortImage 1)) = some (.byte 0xFF) ∧
    answer (exec (.cartRdRomx 0x4000) (shortImage 2)) = some (.byte 0xFF) ∧
    answer (exec (.cartRdRomx 0x4000) (shortImage 8)) = some (.byte 0xB1) := by decide

/-- Sections 2.3 and 2.6: the lifecycle comes before the region. -/
theorem test_cartRdOor :
    answer (exec (.cartRdOor 0x8000) loaded) = some (.fault ⟨.outOfRange, .outOfCartRange⟩) ∧
    answer (exec (.cartRdOor 0x8000) disposed) = some (.fault ⟨.outOfRange, .cartridgeDisposed⟩) := by
  decide

/-- Section 2.3, V9. -/
theorem test_cartRdEram :
    answer (exec (.cartRdEram 0xBFFF) loaded) = some (.byte 0xFF) ∧
    answer (exec (.cartRdEram 0xA000) disposed) = some (.fault ⟨.outOfRange, .cartridgeDisposed⟩) := by
  decide

/-- Section 2.3: `CWR 0x1FFF` faults. -/
theorem test_cartWrRomlo : answer (exec (.cartWrRomlo 0x1FFF 0x00) loaded) =
    some (.fault ⟨.invalidOperation, .writeToRom⟩) := by decide

/-- Section 2.3: `CWR 0x3FFF, 0xE3` leaves `BANK` = 3; section 2.6 after disposal. -/
theorem test_cartWrBank :
    silent (exec (.cartWrBank 0x3FFF 0xE3) loaded) = some (banked 3) ∧
    silent (exec (.cartWrBank 0x2000 0x02) disposed) = some disposed := by decide

/-- Section 2.3: `CWR 0x7FFF` faults. -/
theorem test_cartWrRomx : answer (exec (.cartWrRomx 0x7FFF 0x01) loaded) =
    some (.fault ⟨.invalidOperation, .writeToRom⟩) := by decide

/-- Sections 2.3 and 2.6. -/
theorem test_cartWrOor :
    answer (exec (.cartWrOor 0xC000 0x99) loaded) = some (.fault ⟨.outOfRange, .outOfCartRange⟩) ∧
    answer (exec (.cartWrOor 0x8000 0x00) disposed) =
      some (.fault ⟨.invalidOperation, .cartridgeDisposed⟩) := by decide

/-- Section 2.3. -/
theorem test_cartWrEram : silent (exec (.cartWrEram 0xA000 0x12) loaded) = some loaded := by decide

/-- Section 0: what `T4` decodes to. -/
theorem test_hostHdr : answer (exec (.hostHdr t4) bare) = some (.header t4Header) := by decide

/-- Section 2.1: the length is tested first, then 0x147. -/
theorem test_hostHdr_faults :
    answer (exec (.hostHdr ⟨0x14F, [(0x147, 0x04)]⟩) bare) = some (.fault ⟨.malformedInput, .romTooShort⟩) ∧
    answer (exec (.hostHdr ⟨0x8000, [(0x147, 0x04), (0x148, 0x09), (0x149, 0x06)]⟩) bare) =
      some (.fault ⟨.malformedInput, .unknownCartType⟩) := by decide

/-- V11: after `LOAD T4` the bank register is 1. -/
theorem test_hostLoad : silent (exec (.hostLoad t4) bare) = some noBus := by decide

/-- V14 and R130: `LOAD TOOSHORT` faults and no cartridge exists. -/
theorem test_hostLoad_faults :
    answer (exec (.hostLoad tooShort) loaded) = some (.fault ⟨.malformedInput, .romTooShort⟩) ∧
    silent (exec (.hostLoad tooShort) loaded) = some bare := by decide

/-- R160: the draw becomes the contents, in canonical form. -/
theorem test_hostAttach :
    silent (exec (.hostAttach ⟨[(0x1DFF, 0xA5), (0x10, 0x42), (0x2000, 0x01)],
      [(0x7E, 0x22), (0x03, 0x00), (0x00, 0x11)], 0xE5⟩) noBus) = some loaded := by decide

/-- V15: the image released, the bank register 1. -/
theorem test_hostDispose : silent (exec .hostDispose (banked 3)) = some disposed := by decide

/-- Section 2.3 and V9. -/
theorem test_hostRomsize :
    answer (exec .hostRomsize loaded) = some (.size 0x10000) ∧
    answer (exec .hostRomsize disposed) = some (.size 0) := by decide

/-! ### The header decoder -/

/-- Section 2.1: a title that takes the byte 0x143 too, and one cut to 11 bytes and trimmed. -/
theorem test_title_limit :
    title Config.defaults (titled [0x41, 0x42, 0x43, 0x44, 0x45, 0x46, 0x47, 0x48, 0x49, 0x4A, 0x4B, 0x4C, 0x4D,
      0x4E, 0x4F] 0x41) = [0x41, 0x42, 0x43, 0x44, 0x45, 0x46, 0x47, 0x48, 0x49, 0x4A, 0x4B, 0x4C, 0x4D, 0x4E,
      0x4F, 0x41] ∧
    title Config.defaults (titled [0x41, 0x42, 0x43, 0x44, 0x45, 0x46, 0x47, 0x48, 0x49, 0x4A, 0x20, 0x4B] 0x80) =
      [0x41, 0x42, 0x43, 0x44, 0x45, 0x46, 0x47, 0x48, 0x49, 0x4A] := by decide

/-- Section 2.1: a leading space is kept, trailing ones are not, the first zero ends it. -/
theorem test_title_trim :
    title Config.defaults (titled [0x20, 0x41, 0x42] 0x00) = [0x20, 0x41, 0x42] ∧
    title Config.defaults (titled [0x20, 0x20, 0x20, 0x20] 0x00) = [] ∧
    title Config.defaults (titled [0x41, 0x00, 0x42] 0x00) = [0x41] := by decide

/-- Section 2.1 and V16: the checksum of zeros, of `T4`, and over 25 bytes. -/
theorem test_checksum :
    checksum Config.defaults tooShort = 0xE8 ∧ checksum Config.defaults t4 = 0xA6 ∧
    checksum { Config.defaults with hdrCkLast := .through14C } t4 = 0xA5 := by decide

/-- Section 2.2: the effective bank for counts that are no power of two. -/
theorem test_effBank :
    [0, 1, 2, 3, 4, 5, 8, 16, 17, 31].map (fun b => effBank (BitVec.ofNat 5 b) ⟨3, by decide⟩) =
      [1, 1, 2, 1, 1, 2, 2, 1, 2, 1] ∧
    [0, 1, 31].map (fun b => effBank (BitVec.ofNat 5 b) ⟨1, by decide⟩) = [0, 0, 0] := by decide

/-- R190 to R192: the codes and texts of the faults. -/
theorem test_fault_names :
    [FaultKind.malformedInput, .outOfRange, .invalidOperation, .typeMismatch].map faultCode = [1, 2, 3, 4] ∧
    causeText .writeToRom = "write to ROM not allowed" := by decide

/-! ### Reset -/

/-- R37: `BANK` = 1 and `LIFE` = `Loaded`, with the header the decoder gives. -/
theorem test_reset :
    State.reset.cart = some { rom := resetImage, bank := 1, life := .loaded resetHeader } ∧
    answer (exec (.hostHdr resetImage) State.reset) = some (.header resetHeader) := by decide

/-- R6: a type table that names no MBC1 code is refused, and so is one that names it only where an
earlier pair of the same code shadows it. -/
theorem test_mapsRequiredTypes :
    mapsRequiredTypes [(0x00, .romOnly), (0x02, .mbc1Ram), (0x03, .mbc1RamBattery)] = false ∧
    mapsRequiredTypes [(0x00, .romOnly), (0x00, .mbc1), (0x02, .mbc1Ram), (0x03, .mbc1RamBattery)] = false ∧
    mapsRequiredTypes [(0x10, .romOnly), (0x11, .mbc1), (0x12, .mbc1Ram), (0x13, .mbc1RamBattery)] = true := by
  decide

/-! ### Witnesses: hypotheses met -/

theorem test_loaded_inv : BlockInv loaded where
  romCanonical := by rintro _ ⟨⟩; decide
  headerOfRom := by rintro _ _ ⟨⟩ ⟨⟩; rfl
  disposedEmpty := by rintro _ ⟨⟩ ⟨⟩
  busCanonical := by rintro _ ⟨⟩; decide
  busHasCart := by decide

theorem test_disposed_inv : BlockInv disposed where
  romCanonical := by rintro _ ⟨⟩; decide
  headerOfRom := by rintro _ _ ⟨⟩ ⟨⟩
  disposedEmpty := by rintro _ ⟨⟩ _; decide
  busCanonical := by rintro _ ⟨⟩; decide
  busHasCart := by decide

/-- What waits does not enter the invariant. -/
theorem test_issue_inv {s : State} (h : BlockInv s) (q : List Request) : BlockInv (issue s q) :=
  ⟨h.romCanonical, h.headerOfRom, h.disposedEmpty, h.busCanonical, h.busHasCart⟩

theorem test_EncodedTransactionDecodesToItself_witness :
    ([.busRdCart 0x7FFF, .busRdStub 0x8000, .busRdStub 0xFF7F, .busRdEram 0xBFFF, .busRdWram 0xDFFF,
      .busRdEcho 0xFDFF, .busRdHram 0xFFFE, .busRdIe, .busWrCart 0 0xFF, .busWrStub 0xFE00 1, .busWrEram 0xA000 1,
      .busWrWram 0xC000 1, .busWrEcho 0xE000 1, .busWrHram 0xFF80 1, .busWrIe 1, .cartRdRom0 0x3FFF,
      .cartRdRomx 0x7FFF, .cartRdOor 0xFFFF, .cartRdOor 0x9FFF, .cartRdEram 0xBFFF, .cartWrRomlo 0x1FFF 1,
      .cartWrBank 0x3FFF 1, .cartWrRomx 0x4000 1, .cartWrOor 0x8000 1, .cartWrOor 0xC000 1, .cartWrEram 0xA000 1,
      .hostHdr t4, .hostLoad t4, .hostAttach RamInit.blank, .hostDispose, .hostRomsize] : List Instr).all Instr.wf
      = true := by decide

theorem test_DecodedTransactionIsWellFormedAndKeepsItsWord_witness :
    decode { Packet.ofWord 0x3FFFF with data := 0x80 } = .ok (.cartWrOor 0xFFFF 0x80) ∧
    Writes (.cartWrOor 0xFFFF 0x80) = true ∧ slice 19 16 (0x3FFFF : TxnWord) < 4 ∧
    decode (Packet.ofWord 0x80001) = .ok .hostRomsize ∧ ¬ slice 19 16 (0x80001 : TxnWord) < 4 :=
  ⟨rfl, by decide, by decide, rfl, by decide⟩

theorem test_OpcodeTableAgreesWithTheDecoder_witness :
    (⟨"BUS.RD.IE", 0x0FFFF, 0xFFFFF⟩ : OpcodeRow) ∈ opcodeTable ∧
    (⟨"BUS.RD.IE", 0x0FFFF, 0xFFFFF⟩ : OpcodeRow).selects 0x0FFFF = true ∧
    decode (Packet.ofWord 0x0FFFF) = .ok .busRdIe := ⟨by decide, by decide, rfl⟩

theorem test_StepRunsTheDecodedTransaction_witness :
    (issue loaded [requestOf { Packet.ofWord 0x12000 with data := 0x02 }, busRead 0x4000]).pending =
      requestOf { Packet.ofWord 0x12000 with data := 0x02 } :: [busRead 0x4000] ∧
    decode { Packet.ofWord 0x12000 with data := 0x02 } = .ok (.busWrCart 0x2000 0x02) := ⟨rfl, rfl⟩

theorem test_ReservedSelectorIsRefused_witness :
    (issue loaded [request 0x9 (.int 0) 0]).pending = request 0x9 (.int 0) 0 :: [] ∧
    0x9 ≤ (request 0x9 (.int 0) 0).sel.toNat ∧ 0x9 ≤ (request 0xF .nonInteger 0).sel.toNat ∧
    refusal (step (issue loaded [request 0xF .nonInteger 0])) = some (.reservedSelector 0xF) := by decide

theorem test_PlacedWordIsServedNext_witness :
    decodeTableWord 24 0x04000 = some (.busRdCart 0x4000) ∧ decodeTableWord 24 0x8FFFF = some .hostRomsize ∧
    decodeTableWord 24 0x90000 = none ∧ decodeTableWord 24 0x100000 = none ∧
    answer (step (State.reset.withFetchWord 24 0x80000)) = some (.size 0x150) := by decide

theorem test_BadAddressArgumentFaults_witness :
    (issue loaded [request 0x1 .nonInteger 0]).pending = request 0x1 .nonInteger 0 :: [] ∧
    (request 0x1 .nonInteger 0).sel.toNat < 2 ∧ loaded.bus ≠ none ∧
    (issue noBus [request 0x3 (.int 0x10000) 0]).pending = request 0x3 (.int 0x10000) 0 :: [] ∧
    2 ≤ (request 0x3 (.int 0x10000) 0).sel.toNat ∧ (request 0x3 (.int 0x10000) 0).sel.toNat < 4 ∧
    noBus.cart ≠ none ∧ (0xFFFF : Int) < 0x10000 ∧ (-1 : Int) < 0 := by decide

/-- V8: the faults themselves, and section 2.4: a wide data value is masked. -/
theorem test_entry_checks :
    answer (step (issue loaded [request 0x0 (.int (-1)) 0])) = some (.fault ⟨.outOfRange, .address⟩) ∧
    answer (step (issue loaded [request 0x1 .nonInteger 0])) = some (.fault ⟨.typeMismatch, .address⟩) ∧
    silent (step (issue loaded [request 0x1 (.int 0x2000) 0x1E2])) = some (banked 2) := by decide

theorem test_BusReadFollowsAddressMap_witness :
    loaded.cart = some t4Cart ∧ loaded.bus = some someBus ∧
    (issue loaded [request 0x0 (.int (0xFFFF : Nat)) 0]).pending = request 0x0 (.int (0xFFFF : Nat)) 0 :: [] ∧
    (request 0x0 (.int (0xFFFF : Nat)) 0).sel = 0x0 ∧ 0xFFFF ≤ 0xFFFF := by decide

theorem test_BusWriteFollowsAddressMap_witness :
    disposed.cart = some disposedCart ∧ disposed.bus = some someBus ∧
    (issue disposed [request 0x1 (.int (0 : Nat)) 0x1FF]).pending = request 0x1 (.int (0 : Nat)) 0x1FF :: [] ∧
    (request 0x1 (.int (0 : Nat)) 0x1FF).sel = 0x1 := by decide

theorem test_CartridgePortFollowsAddressMap_witness :
    noBus.cart = some t4Cart ∧
    (issue noBus [request 0x2 (.int (0xFFFF : Nat)) 0]).pending = request 0x2 (.int (0xFFFF : Nat)) 0 :: [] ∧
    (request 0x2 (.int (0xFFFF : Nat)) 0).sel = 0x2 ∧
    (issue noBus [request 0x3 (.int (0x2000 : Nat)) 3]).pending = request 0x3 (.int (0x2000 : Nat)) 3 :: [] ∧
    (request 0x3 (.int (0x2000 : Nat)) 3).sel = 0x3 := by decide

theorem test_AttachedBlockAlwaysAnswers_witness :
    disposed.cart ≠ none ∧ disposed.bus ≠ none ∧
    (∀ r, (issue disposed [request 0x8 .nonInteger 0]).pending.head? = some r → r.sel.toNat ≤ 0x8) :=
  ⟨by decide, by decide, by rintro _ ⟨⟩; decide⟩

theorem test_StepServesOneTransactionInOrder_witness :
    silent (step (issue loaded [busRead 0, busRead 1])) = some (issue loaded [busRead 1]) ∧
    loaded.pending = [] := by decide

/-- The two ends of the fixed and of the switchable window. -/
theorem test_BusReadOfRomAnswersItsByte_witness :
    loaded.cart = some t4Cart ∧ t4Cart.life = .loaded t4Header ∧ loaded.bus = some someBus ∧
    (0x3FFF : Addr).toNat ≤ 0x3FFF ∧ (0x4000 : Addr).toNat ≤ 0x7FFF ∧ (0x7FFF : Addr).toNat ≤ 0x7FFF := by decide

theorem test_BusReadOfStoresAnswersTheByte_witness :
    loaded.bus = some someBus ∧
    (0xC000 ≤ (0xDFFF : Addr).toNat ∧ (0xDFFF : Addr).toNat ≤ 0xDFFF) ∧
    (0xE000 ≤ (0xE000 : Addr).toNat ∧ (0xE000 : Addr).toNat ≤ 0xFDFF) ∧
    (0xFF80 ≤ (0xFFFE : Addr).toNat ∧ (0xFFFE : Addr).toNat ≤ 0xFFFE) := by decide

theorem test_RegionsWithoutStorageReadFF_witness :
    loaded.bus ≠ none ∧ loaded.cart = some t4Cart ∧ t4Cart.life = .loaded t4Header ∧
    (0xA000 ≤ (0xBFFF : Addr).toNat ∧ (0xBFFF : Addr).toNat ≤ 0xBFFF) := by decide

theorem test_WorkRamWriteStoresOneByte_witness :
    BlockInv loaded ∧ loaded.bus = some someBus ∧
    (0xC000 ≤ (0xC000 : Addr).toNat ∧ (0xC000 : Addr).toNat ≤ 0xDFFF) ∧
    (0xE000 ≤ (0xFDFF : Addr).toNat ∧ (0xFDFF : Addr).toNat ≤ 0xFDFF) :=
  ⟨test_loaded_inv, by decide⟩

theorem test_HighRamAndInterruptEnableWritesStoreOneByte_witness :
    BlockInv loaded ∧ loaded.bus = some someBus ∧
    (0xFF80 ≤ (0xFF80 : Addr).toNat ∧ (0xFF80 : Addr).toNat ≤ 0xFFFE) :=
  ⟨test_loaded_inv, by decide⟩

theorem test_WritesWithoutStorageChangeNothing_witness :
    loaded.bus ≠ none ∧ loaded.cart = some t4Cart ∧ t4Cart.life = .loaded t4Header ∧
    (0xA000 ≤ (0xA000 : Addr).toNat ∧ (0xA000 : Addr).toNat ≤ 0xBFFF) := by decide

theorem test_ControlWriteSetsTheBank_witness :
    loaded.cart = some t4Cart ∧ t4Cart.life = .loaded t4Header ∧ loaded.bus ≠ none ∧
    (0x2000 ≤ (0x2000 : Addr).toNat ∧ (0x3FFF : Addr).toNat ≤ 0x3FFF) := by decide

theorem test_WriteToRomFaults_witness :
    loaded.cart = some t4Cart ∧ t4Cart.life = .loaded t4Header ∧ loaded.bus ≠ none ∧
    (0x1FFF : Addr).toNat ≤ 0x1FFF ∧ (0x4000 ≤ (0x4000 : Addr).toNat ∧ (0x4000 : Addr).toNat ≤ 0x7FFF) := by
  decide

theorem test_CartridgeReadOfRomAnswersItsByte_witness :
    noBus.cart = some t4Cart ∧ t4Cart.life = .loaded t4Header ∧ (0x3FFF : Addr).toNat ≤ 0x3FFF ∧
    (0x4000 ≤ (0x7FFF : Addr).toNat ∧ (0x7FFF : Addr).toNat ≤ 0x7FFF) := by decide

theorem test_PortAccessOutOfRangeFaults_witness :
    loaded.cart = some t4Cart ∧ t4Cart.life = .loaded t4Header ∧
    (0x8000 ≤ (0x9FFF : Addr).toNat ∧ (0x9FFF : Addr).toNat ≤ 0x9FFF) ∧ 0xC000 ≤ (0xC000 : Addr).toNat := by decide

theorem test_DisposedReadsFault_witness :
    disposed.cart = some disposedCart ∧ disposedCart.life = .disposed ∧ disposed.bus ≠ none ∧
    Instr.cartRdOor 0x8000 ∈ [.cartRdRom0 0x8000, .cartRdRomx 0x8000, .cartRdEram 0x8000, .cartRdOor 0x8000] ∧
    Instr.busRdEram 0xA000 ∈ [.busRdCart 0xA000, .busRdEram 0xA000] := by decide

theorem test_DisposedWritesFault_witness :
    disposed.cart = some disposedCart ∧ disposedCart.life = .disposed ∧ disposed.bus ≠ none ∧
    Instr.cartWrBank 0x2000 2 ∈ [.cartWrRomlo 0x2000 2, .cartWrBank 0x2000 2, .cartWrRomx 0x2000 2,
      .cartWrEram 0x2000 2, .cartWrOor 0x2000 2] ∧
    Instr.busWrCart 0x2000 2 ∈ [.busWrCart 0x2000 2, .busWrEram 0x2000 2] := by decide

theorem test_BusForwardsToTheCartridgePort_witness :
    loaded.bus ≠ none ∧ disposed.bus ≠ none ∧ (0x7FFF : Addr).toNat ≤ 0x7FFF ∧
    (0xA000 ≤ (0xBFFF : Addr).toNat ∧ (0xBFFF : Addr).toNat ≤ 0xBFFF) := by decide

/-- V10 and section 2.1: one image for each clause, each wrong in one place only. -/
theorem test_HeaderDecodeOutcome_witness :
    tooShort.size < 0x150 ∧
    (0x150 ≤ (⟨0x150, [(0x147, 0x04)]⟩ : Image).size ∧
      lookupCode bare.params.cartTypeTable.val ((⟨0x150, [(0x147, 0x04)]⟩ : Image).byte 0x147) = none) ∧
    (lookupCode bare.params.cartTypeTable.val ((⟨0x150, [(0x148, 0x09)]⟩ : Image).byte 0x147) ≠ none ∧
      lookupCode bare.params.romSizeTable ((⟨0x150, [(0x148, 0x09)]⟩ : Image).byte 0x148) = none) ∧
    (lookupCode bare.params.cartTypeTable.val ((⟨0x150, [(0x149, 0x06)]⟩ : Image).byte 0x147) ≠ none ∧
      lookupCode bare.params.romSizeTable ((⟨0x150, [(0x149, 0x06)]⟩ : Image).byte 0x148) ≠ none ∧
      lookupCode bare.params.ramSizeTable ((⟨0x150, [(0x149, 0x06)]⟩ : Image).byte 0x149) = none) ∧
    (0x150 ≤ t4.size ∧ lookupCode bare.params.cartTypeTable.val (t4.byte 0x147) = some .mbc1 ∧
      lookupCode bare.params.romSizeTable (t4.byte 0x148) = some ⟨4, by decide⟩ ∧
      lookupCode bare.params.ramSizeTable (t4.byte 0x149) = some 0) := by decide

theorem test_LoadBuildsTheCartridge_witness : parseHeader loaded.params t4 = .ok t4Header := rfl

theorem test_FailedLoadLeavesNoCartridge_witness :
    parseHeader loaded.params tooShort = .error ⟨.malformedInput, .romTooShort⟩ ∧
    parseHeader loaded.params ⟨0x150, [(0x149, 0x06)]⟩ = .error ⟨.malformedInput, .unknownRamSize⟩ := ⟨rfl, rfl⟩

theorem test_AbsentComponentIsRefused_witness :
    bare.cart = none ∧ noBus.bus = none ∧ parseHeader loaded.params t4 = .ok t4Header ∧
    silent (exec (.hostLoad t4) loaded) = some noBus := ⟨rfl, rfl, rfl, by decide⟩

theorem test_AttachCreatesTheStores_witness : noBus.cart = some t4Cart ∧ disposed.cart = some disposedCart := by
  decide

theorem test_DisposeEmptiesTheCartridge_witness :
    loaded.cart = some t4Cart ∧ disposed.cart = some disposedCart := by decide

theorem test_RomSizeAnswersTheLength_witness :
    loaded.cart = some t4Cart ∧ ∃ t, exec .hostDispose loaded = .next t := ⟨by decide, _, rfl⟩

theorem test_ResetSequenceLeavesTheResetValues_witness : parseHeader bare.params t4 = .ok t4Header := rfl

theorem test_StepKeepsBlockInv_witness :
    BlockInv (issue loaded [busWrite 0xC010 0x00]) ∧
    ∃ t, step (issue loaded [busWrite 0xC010 0x00]) = .next t :=
  ⟨test_issue_inv test_loaded_inv _, _, rfl⟩

theorem test_RomAndHeaderAreConstantBetweenLoads_witness :
    loaded.cart = some t4Cart ∧
    (∀ q ∈ (issue loaded [busWrite 0x2000 3, busRead 0x4000]).pending.take 2, q.sel ≠ 0x5 ∧ q.sel ≠ 0x7) ∧
    ∃ t : State, Host.Core.run core 2 (issue loaded [busWrite 0x2000 3, busRead 0x4000]) = .next t :=
  ⟨by decide, by decide, _, rfl⟩

theorem test_DisposedIsTerminal_witness :
    BlockInv (issue disposed [busWrite 0x2000 3]) ∧ disposed.cart = some disposedCart ∧
    disposedCart.life = .disposed ∧
    (∀ q ∈ (issue disposed [busWrite 0x2000 3]).pending.take 1, q.sel ≠ 0x5) ∧
    ∃ t : State, Host.Core.run core 1 (issue disposed [busWrite 0x2000 3]) = .next t :=
  ⟨test_issue_inv test_disposed_inv _, by decide, by decide, by decide, _, rfl⟩

theorem test_OnlyControlWritesChangeTheBank_witness :
    silent (step (issue loaded [busWrite 0x3FFF 3])) = some (banked 3) ∧ loaded.cart = some t4Cart ∧
    (banked 3).cart = some { t4Cart with bank := 3 } ∧ (3 : BitVec 5) ≠ t4Cart.bank := by decide

theorem test_StoredBytesChangeOnlyByTheirWrites_witness :
    BlockInv (issue loaded [busWrite 0xE010 0x43]) ∧
    ∃ t, step (issue loaded [busWrite 0xE010 0x43]) = .next t ∧
      storeByte t (.wram 0x10) ≠ storeByte (issue loaded [busWrite 0xE010 0x43]) (.wram 0x10) :=
  ⟨test_issue_inv test_loaded_inv _, _, rfl, by decide⟩

theorem test_EffectiveBankStaysInRange_witness :
    2 ≤ (⟨2, by decide⟩ : BankCount).val ∧ (⟨1, by decide⟩ : BankCount).val = 1 := by decide

theorem test_EffectiveBankProperties_witness :
    (⟨1, by decide⟩ : BankCount).val = 1 ∧ (⟨2, by decide⟩ : BankCount).val = 2 ∧
    32 ≤ (⟨32, by decide⟩ : BankCount).val ∧
    (2 ≤ (⟨31, by decide⟩ : BankCount).val ∧ (⟨31, by decide⟩ : BankCount).val ≤ 31 ∧
      (⟨31, by decide⟩ : BankCount).val ∣ (31 : BitVec 5).toNat) ∧
    (⟨16, by decide⟩ : BankCount).val = 2 ^ 4 := by decide

theorem test_EffectiveBankOfPowersOfTwo_witness :
    (⟨1, by decide⟩ : BankCount).val = 2 ^ 0 ∧ (⟨32, by decide⟩ : BankCount).val = 2 ^ 5 ∧ (⟨64, by decide⟩ : BankCount).val = 2 ^ 6 ∧
    (⟨2, by decide⟩ : BankCount).val = 2 ^ 1 ∧ (⟨512, by decide⟩ : BankCount).val = 2 ^ 9 := by decide

theorem test_WindowIndexFitsNineteenBits_witness :
    0x4000 ≤ (0x7FFF : Addr).toNat ∧ (0x7FFF : Addr).toNat ≤ 0x7FFF := by decide

theorem test_ControlWriteGovernsTheNextRead_witness :
    (issue loaded [busWrite 0x2000 0xE3, busRead 0x7FFF]).cart = some t4Cart ∧
    t4Cart.life = .loaded t4Header ∧ loaded.bus ≠ none ∧
    (0x2000 ≤ (0x2000 : Addr).toNat ∧ (0x2000 : Addr).toNat ≤ 0x3FFF) ∧
    (0x4000 ≤ (0x7FFF : Addr).toNat ∧ (0x7FFF : Addr).toNat ≤ 0x7FFF) := by decide

/-- V1: `T4`'s checksum holds, and its image with byte 0x134 changed differs from it there alone. -/
theorem test_FlippedHeaderByteFailsTheChecksum_witness :
    ∃ y : Image, headerChecksumOK Config.defaults t4 = true ∧ t4.byte 0x134 ≠ y.byte 0x134 ∧
      ∀ i, i ≠ 0x134 → t4.byte i = y.byte i := by
  refine ⟨⟨0x10000, (0x134, 0x55) :: t4.cells⟩, by decide, by decide, fun i hi => ?_⟩
  simp only [Image.byte, t4, Memory.read_cons 0x134 0x55, if_neg (Ne.symm hi)]
  rfl

/-- Two images that differ outside the header. -/
theorem test_HeaderDependsOnHeaderBytesOnly_witness :
    AgreeOnHeader Config.defaults ⟨0x8000, []⟩ ⟨0x10000, []⟩ := by
  refine ⟨by decide, by decide, fun i _ h => ?_, by decide, by decide, by decide⟩
  simp only [Image.byte]
  rw [if_pos (by omega), if_pos (by omega)]

theorem test_ReadsHaveNoSideEffect_witness :
    Reads (.busRdIe) = true ∧ ∃ t, exec .busRdIe loaded = .next t := ⟨by decide, _, rfl⟩

theorem test_WritesAreIdempotent_witness :
    BlockInv loaded ∧ (Instr.busWrHram 0xFFFE 0x00).wf = true ∧ Writes (.busWrHram 0xFFFE 0x00) = true ∧
    ∃ t, exec (.busWrHram 0xFFFE 0x00) loaded = .next t := ⟨test_loaded_inv, by decide, by decide, _, rfl⟩

theorem test_FaultLeavesNoTrace_witness :
    answer (exec (.busWrCart 0x1FFF 2) loaded) = some (.fault ⟨.invalidOperation, .writeToRom⟩) ∧
    (∀ im, Instr.busWrCart 0x1FFF 2 ≠ .hostLoad im) := ⟨by decide, by rintro im ⟨⟩⟩

theorem test_RepeatedFaultIsTheSame_witness :
    answer (exec (.hostLoad tooShort) loaded) = some (.fault ⟨.malformedInput, .romTooShort⟩) := by decide

theorem test_FaultsOnlyAtTheFaultSites_witness :
    (Instr.cartWrOor 0x8000 0).wf = true ∧
    answer (exec (.cartWrOor 0x8000 0) loaded) = some (.fault ⟨.outOfRange, .outOfCartRange⟩) := by decide

theorem test_MetadataInfluencesNothing_witness :
    forgetMetadata loaded = forgetMetadata
      { loaded with cart := some { t4Cart with life := .loaded { t4Header with title := [0x58], type := .mbc5 } } } ∧
    ∃ t, exec (.busRdCart 0x4000) loaded = .next t := ⟨by decide, _, rfl⟩

theorem test_BusOwnedRegionsIgnoreTheCartridge_witness :
    Instr.busWrEcho 0xE000 7 ∈ [.busRdStub 0xE000, .busRdWram 0xE000, .busRdEcho 0xE000, .busRdHram 0xE000,
      .busRdIe, .busWrStub 0xE000 7, .busWrWram 0xE000 7, .busWrEcho 0xE000 7, .busWrHram 0xE000 7, .busWrIe 7] ∧
    ∃ t, exec (.busWrEcho 0xE000 7) loaded = .next t := ⟨by decide, _, rfl⟩

/-- The last byte that has an echo. -/
theorem test_EchoWindowAliasesWorkRam_witness :
    BlockInv (issue loaded [busWrite 0xDDFF 0x5A, busRead 0xFDFF]) ∧ loaded.bus ≠ none ∧
    (0xDDFF : Addr).toNat = 0xC000 + 0x1DFF ∧ (0xFDFF : Addr).toNat = 0xE000 + 0x1DFF :=
  ⟨test_issue_inv test_loaded_inv _, by decide⟩

/-- A write, two transactions that store elsewhere, and the byte's other address. -/
theorem test_LatestWriteIsRead_witness :
    BlockInv (issue loaded [busWrite 0xC010 0x43, busWrite 0xFE10 0x44, busRead 0xC010]) ∧
    storesTo (busWrite 0xC010 0x43) = some (.wram 0x10) ∧ storeAt (0xE010 : Addr).toNat = some (.wram 0x10) ∧
    (∀ q ∈ [busWrite 0xFE10 0x44, busRead 0xC010].take 2,
      storesTo q ≠ some (.wram 0x10) ∧ q.sel ≠ 0x5 ∧ q.sel ≠ 0x6) ∧
    ∃ t : State, Host.Core.run core 3
      (issue loaded [busWrite 0xC010 0x43, busWrite 0xFE10 0x44, busRead 0xC010]) = .next t :=
  ⟨test_issue_inv test_loaded_inv _, by decide, by decide, by decide, _, rfl⟩

end Sys2Proof.Tests
end

section
/-! SUPPORT. What a request that is served says about the instruction it runs: its address lies in the
mnemonic's range, and its selector and address are those the encoder gives it. -/

namespace Sys2Proof

/-! ### The decoder's answers are well formed, and encode to the word they were read from -/

theorem wf_decodeBusRead (a : Addr) : (decodeBusRead a).wf = true := by
  have ha := a.isLt
  have hr := busRegion_eq a
  unfold decodeBusRead
  cases h : busRegion a <;> simp only [Instr.wf, Bool.or_eq_true, inRange_iff] <;> grind

theorem wf_decodeBusWrite (a : Addr) (v : Byte) : (decodeBusWrite a v).wf = true := by
  have ha := a.isLt
  have hr := busRegion_eq a
  unfold decodeBusWrite
  cases h : busRegion a <;> simp only [Instr.wf, Bool.or_eq_true, inRange_iff] <;> grind

theorem wf_decodeCartRead (a : Addr) : (decodeCartRead a).wf = true := by
  have ha := a.isLt
  have hr := cartReadRegion_eq a
  unfold decodeCartRead
  cases h : cartReadRegion a <;> simp only [Instr.wf, Bool.or_eq_true, inRange_iff] <;> grind

theorem wf_decodeCartWrite (a : Addr) (v : Byte) : (decodeCartWrite a v).wf = true := by
  have ha := a.isLt
  have hr := cartWriteRegion_eq a
  unfold decodeCartWrite
  cases h : cartWriteRegion a <;> simp only [Instr.wf, Bool.or_eq_true, inRange_iff] <;> grind

/-- What the decoder accepts is well formed: its address lies in its mnemonic's range (R96). -/
theorem decode_wf {p : Packet} {i : Instr} (h : decode p = .ok i) : i.wf = true := by
  unfold decode at h
  split at h <;> cases h
  · exact wf_decodeBusRead _
  · exact wf_decodeBusWrite _ _
  · exact wf_decodeCartRead _
  · exact wf_decodeCartWrite _ _
  all_goals rfl

/-- The region of the interrupt-enable byte is the one address 0xFFFF. -/
theorem eq_FFFF_of_busRegion {a : Addr} (h : busRegion a = .ie) : a = 0xFFFF := by
  have ha := a.isLt
  have hn : ¬ a.toNat ≤ 0xFFFE := by
    rw [busRegion_eq] at h
    grind
  exact BitVec.eq_of_toNat_eq (show a.toNat = 0xFFFF by omega)

@[simp] theorem encode_decodeBusRead (a : Addr) : encode (decodeBusRead a) = readPacket 0x0 a := by
  unfold decodeBusRead
  cases h : busRegion a
  case ie => rw [eq_FFFF_of_busRegion h]; rfl
  all_goals rfl

@[simp] theorem encode_decodeBusWrite (a : Addr) (v : Byte) :
    encode (decodeBusWrite a v) = writePacket 0x1 a v := by
  unfold decodeBusWrite
  cases h : busRegion a
  case ie => rw [eq_FFFF_of_busRegion h]; rfl
  all_goals rfl

@[simp] theorem encode_decodeCartRead (a : Addr) : encode (decodeCartRead a) = readPacket 0x2 a := by
  unfold decodeCartRead
  cases cartReadRegion a <;> rfl

@[simp] theorem encode_decodeCartWrite (a : Addr) (v : Byte) :
    encode (decodeCartWrite a v) = writePacket 0x3 a v := by
  unfold decodeCartWrite
  cases cartWriteRegion a <;> rfl

/-- The encoder gives back the selector of an accepted word, and its address where that is read (R80). -/
theorem encode_word_of_decode {p : Packet} {i : Instr} (h : decode p = .ok i) :
    (encode i).word =
      makeWord (slice 19 16 p.word) (if slice 19 16 p.word < 4 then wordAddr p.word else 0) := by
  unfold decode at h
  split at h <;> cases h <;> rename_i hs <;> rw [hs]
  · rw [encode_decodeBusRead]; rfl
  · rw [encode_decodeBusWrite]; rfl
  · rw [encode_decodeCartRead]; rfl
  · rw [encode_decodeCartWrite]; rfl
  all_goals rfl

/-- A word determines its selector and its address. -/
theorem makeWord_inj {j k : Nat} (hj : j < 16) (hk : k < 16) {a b : Addr}
    (h : makeWord j a = makeWord k b) : j = k ∧ a = b :=
  ⟨by simpa [hj, hk] using congrArg (slice 19 16) h, by simpa [hj, hk] using congrArg wordAddr h⟩

namespace Machine

/-! ### The instruction a request is served by -/

/-- Serving `r` runs `i`: its packet, at an address its entry check lets pass, decodes to `i`. -/
def Serves (r : Request) (i : Instr) : Prop :=
  ∃ a, decode (packetAt r a) = .ok i ∧ (r.sel.toNat < 4 → r.addr = .int (a.toNat : Nat))

theorem Serves.wf {r : Request} {i : Instr} (h : Serves r i) : i.wf = true := by
  obtain ⟨a, hd, -⟩ := h
  exact decode_wf hd

/-- A request has the selector and, where it is read, the address of the instruction it runs. -/
theorem Serves.sel_addr {r : Request} {i : Instr} {k : Nat} {x : Addr} (h : Serves r i) (hk : k < 16)
    (hw : (encode i).word = makeWord k x) :
    r.sel = BitVec.ofNat 4 k ∧ (k < 4 → r.addr = .int (x.toNat : Nat)) := by
  obtain ⟨a, hd, ha⟩ := h
  have hr : r.sel.toNat < 16 := r.sel.isLt
  have he := encode_word_of_decode hd
  simp only [packetAt, slice_makeWord_sel _ hr, wordAddr_makeWord _ hr] at he
  obtain ⟨rfl, rfl⟩ := makeWord_inj hk hr (hw.symm.trans he)
  exact ⟨by simp, fun h4 => by rw [if_pos h4]; exact ha h4⟩

theorem Serves.sel_hostLoad {r : Request} {im : Image} (h : Serves r (.hostLoad im)) : r.sel = 0x5 :=
  (h.sel_addr (k := 0x5) (by decide) rfl).1

theorem Serves.sel_hostAttach {r : Request} {ram : RamInit} (h : Serves r (.hostAttach ram)) :
    r.sel = 0x6 :=
  (h.sel_addr (k := 0x6) (by decide) rfl).1

theorem Serves.sel_hostDispose {r : Request} (h : Serves r .hostDispose) : r.sel = 0x7 :=
  (h.sel_addr (k := 0x7) (by decide) rfl).1

/-- A request that runs an instruction of BUS.WR has selector 0x1 and the instruction's address. -/
theorem Serves.busWrite {r : Request} {i : Instr} {x : Addr} (h : Serves r i)
    (hw : (encode i).word = makeWord 0x1 x) : r.sel = 0x1 ∧ r.addr = .int (x.toNat : Nat) := by
  obtain ⟨hs, ha⟩ := h.sel_addr (by decide) hw
  exact ⟨hs, ha (by decide)⟩

/-- A request that runs an instruction of CART.WR has selector 0x3 and the instruction's address. -/
theorem Serves.cartWrite {r : Request} {i : Instr} {x : Addr} (h : Serves r i)
    (hw : (encode i).word = makeWord 0x3 x) : r.sel = 0x3 ∧ r.addr = .int (x.toNat : Nat) := by
  obtain ⟨hs, ha⟩ := h.sel_addr (by decide) hw
  exact ⟨hs, ha (by decide)⟩

/-! ### The effect of a step -/

/-- What serving the oldest request `r` can do to `s`, the state it is taken off: a fault raised at the
entry, or the effect of the instruction it runs. -/
inductive ServeEffect (s : State) (r : Request) : State → Prop where
  | raised (f : FaultRecord) : ServeEffect s r (s.setResponse (.fault f))
  | ran (i : Instr) (t : State) : Serves r i → ExecEffect s i t → ServeEffect s r t

/-- A step serves the oldest request, or has none and does nothing. -/
theorem step_effect {s t : State} (h : step s = .next t) :
    (s.pending = [] ∧ t = s) ∨
    ∃ r rest, s.pending = r :: rest ∧ ServeEffect (s.setPending rest) r t := by
  obtain hidle | ⟨r, rest, hp, ⟨f, rfl⟩ | ⟨a, i, hd, ha, he⟩⟩ := step_next h
  · exact .inl hidle
  · exact .inr ⟨r, rest, hp, .raised f⟩
  · exact .inr ⟨r, rest, hp, .ran i t ⟨a, hd, ha⟩ (exec_next he)⟩

theorem ExecEffect.pending_eq {s t : State} {i : Instr} (h : ExecEffect s i t) :
    t.pending = s.pending := by
  cases h <;> rfl

/-- A step takes the oldest request off the stream. -/
theorem step_pending {s t : State} (h : step s = .next t) : t.pending = s.pending.tail := by
  obtain ⟨hp, rfl⟩ | ⟨r, rest, hp, f | ⟨i, _, -, he⟩⟩ := step_effect h
  · rw [hp]; rfl
  · rw [hp]; rfl
  · rw [he.pending_eq, hp]; rfl

/-- What every step on an allowed request keeps, a run on allowed requests keeps. -/
theorem run_keeps {P : State → Prop} {allowed : Request → Prop}
    (hstep : ∀ s t, P s → (∀ r, s.pending.head? = some r → allowed r) → step s = .next t → P t)
    {k : Nat} {s t : State} (hs : P s) (hq : ∀ q ∈ s.pending.take k, allowed q)
    (hr : Host.Core.run core k s = .next t) : P t := by
  induction k generalizing s with
  | zero => cases hr; exact hs
  | succ k ih =>
    obtain ⟨u, hu, hr⟩ := run_succ_next hr
    cases hp : s.pending with
    | nil =>
      refine ih (hstep s u hs (by simp [hp]) hu) (by simp [step_pending hu, hp]) hr
    | cons r rest =>
      rw [hp, List.take_succ_cons, List.forall_mem_cons] at hq
      refine ih (hstep s u hs (by simpa [hp] using hq.1) hu) ?_ hr
      simpa [step_pending hu, hp] using hq.2

end Machine

end Sys2Proof
end

section
/-! PROOFS. The invariant of the block, update by update, and with it every step: `StepKeepsBlockInv`
and `BlockInvHoldsAtReset`. -/

namespace Sys2Proof.Machine

/-! ### The invariant under the updates of a state -/

/-- The stream and the response do not enter the invariant. -/
theorem BlockInv.of_blockOf_eq {s t : State} (h : BlockInv s) (he : blockOf t = blockOf s) :
    BlockInv t := by
  simp only [blockOf, Prod.mk.injEq] at he
  obtain ⟨hp, hc, hb⟩ := he
  obtain ⟨h₁, h₂, h₃, h₄, h₅⟩ := h
  constructor <;> simpa only [hp, hc, hb]

theorem BlockInv.setResponse {s : State} (h : BlockInv s) (r : Response) : BlockInv (s.setResponse r) :=
  h.of_blockOf_eq rfl

theorem BlockInv.setPending {s : State} (h : BlockInv s) (q : List Request) :
    BlockInv (s.setPending q) :=
  h.of_blockOf_eq rfl

/-- A bus whose stores are canonical may be put in where there is a cartridge. -/
theorem BlockInv.setBus_some {s : State} (h : BlockInv s) (hc : s.cart ≠ none) {b : Bus}
    (hw : Memory.wf Config.wramSize b.wram = true) (hh : Memory.wf Config.hramSize b.hram = true) :
    BlockInv (s.setBus (some b)) where
  romCanonical := h.romCanonical
  headerOfRom := h.headerOfRom
  disposedEmpty := h.disposedEmpty
  busCanonical := by rintro _ ⟨⟩; exact ⟨hw, hh⟩
  busHasCart := fun _ => hc

/-- Taking the bus away keeps the invariant. -/
theorem BlockInv.setBus_none {s : State} (h : BlockInv s) : BlockInv (s.setBus none) where
  romCanonical := h.romCanonical
  headerOfRom := h.headerOfRom
  disposedEmpty := h.disposedEmpty
  busCanonical := by rintro _ ⟨⟩
  busHasCart := fun hn => absurd rfl hn

/-- A loaded cartridge whose header is its canonical image's may be put in. -/
theorem BlockInv.setCart_loaded {s : State} (h : BlockInv s) {c : Cartridge} {hd : Header}
    (hl : c.life = .loaded hd) (hw : Memory.wf c.rom.size c.rom.cells = true)
    (hp : parseHeader s.params c.rom = .ok hd) : BlockInv (s.setCart (some c)) where
  romCanonical := by rintro _ ⟨⟩; exact hw
  headerOfRom := by
    rintro _ hd' ⟨⟩ hl'
    obtain rfl : hd = hd' := by rw [hl] at hl'; exact Life.loaded.inj hl'
    exact hp
  disposedEmpty := by rintro _ ⟨⟩ hl'; rw [hl] at hl'; cases hl'
  busCanonical := h.busCanonical
  busHasCart := fun _ => Option.some_ne_none c

/-- The cartridge HOST.DISPOSE leaves may be put in. -/
theorem BlockInv.setCart_disposed {s : State} (h : BlockInv s) :
    BlockInv (s.setCart (some
      { rom := Image.empty, bank := Config.bankReset, life := .disposed })) where
  romCanonical := by rintro _ ⟨⟩; rfl
  headerOfRom := by rintro _ _ ⟨⟩ ⟨⟩
  disposedEmpty := by rintro _ ⟨⟩ _; exact ⟨rfl, rfl⟩
  busCanonical := h.busCanonical
  busHasCart := fun _ => Option.some_ne_none _

/-- With neither cartridge nor bus there is nothing to hold. -/
theorem BlockInv.of_none {s : State} (hc : s.cart = none) (hb : s.bus = none) : BlockInv s := by
  constructor <;> simp [hc, hb]

/-! ### The invariant under an instruction, a step, at reset -/

theorem hramIndex_lt {a : Addr} (h : 0xFF80 ≤ a.toNat ∧ a.toNat ≤ 0xFFFE) :
    hramIndex a < Config.hramSize := by
  rw [hramIndex_eq h, Config.hramSize]
  omega

/-- A well-formed instruction keeps the invariant. -/
theorem ExecEffect.keeps_blockInv {s t : State} {i : Instr} (he : ExecEffect s i t) (hi : i.wf = true)
    (h : BlockInv s) : BlockInv t := by
  have hcart : ∀ {b}, s.bus = some b → s.cart ≠ none := fun hb => h.busHasCart (by simp [hb])
  cases he <;> apply BlockInv.setResponse
  case answer => exact h
  case bank c hd a v hc hl _ =>
    exact h.setCart_loaded hl (h.romCanonical c hc) (h.headerOfRom c hd hc hl)
  case wram b a v hb =>
    obtain ⟨hw, hh⟩ := h.busCanonical b hb
    exact h.setBus_some (hcart hb) (Memory.wf_write hw (wramIndex_lt a) v) hh
  case echo b a v hb =>
    obtain ⟨hw, hh⟩ := h.busCanonical b hb
    exact h.setBus_some (hcart hb) (Memory.wf_write hw (echoIndex_lt a) v) hh
  case hram b a v hb =>
    obtain ⟨hw, hh⟩ := h.busCanonical b hb
    have ha : hramIndex a < Config.hramSize := hramIndex_lt (inRange_iff.mp hi)
    exact h.setBus_some (hcart hb) hw (Memory.wf_write hh ha v)
  case ie b v hb =>
    obtain ⟨hw, hh⟩ := h.busCanonical b hb
    exact h.setBus_some (hcart hb) hw hh
  case load im hd hp =>
    have hn : parseHeader s.params im.normal = .ok hd := (parseHeader_normal _ _).trans hp
    exact (h.setCart_loaded rfl im.normal_wf hn).setBus_none
  case loadFault im f _ => exact BlockInv.of_none rfl rfl
  case attach c ram hc =>
    have hc : s.cart ≠ none := by simp [hc]
    exact h.setBus_some hc (Memory.wf_ofCells _ _) (Memory.wf_ofCells _ _)
  case dispose c _ => exact h.setCart_disposed

/-- A step keeps the invariant: what it runs is decoded, so it is well formed. -/
theorem step_keeps_blockInv {s t : State} (h : BlockInv s) (hst : step s = .next t) : BlockInv t := by
  obtain ⟨-, rfl⟩ | ⟨r, rest, -, f | ⟨i, _, hi, he⟩⟩ := step_effect hst
  · exact h
  · exact (h.setPending rest).setResponse _
  · exact he.keeps_blockInv hi.wf (h.setPending rest)

/-- Settles O37: the inversion of a step, and each effect's own update of the invariant. -/
theorem stepKeepsBlockInv : Obligations.StepKeepsBlockInv := fun _ _ => step_keeps_blockInv

/-- Settles O36: the empty listings are canonical, and `resetHeader` is what `resetImage` decodes to. -/
theorem blockInvHoldsAtReset : Obligations.BlockInvHoldsAtReset where
  romCanonical := by rintro _ ⟨⟩; rfl
  headerOfRom := by rintro _ _ ⟨⟩ ⟨⟩; rfl
  disposedEmpty := by rintro _ ⟨⟩ ⟨⟩
  busCanonical := by rintro _ ⟨⟩; exact ⟨rfl, rfl⟩
  busHasCart := fun _ => Option.some_ne_none _

end Sys2Proof.Machine
end

section
/-! PROOFS. What a step leaves unchanged in the cartridge and in the bus-owned stores, and which requests
change the rest: `RomAndHeaderAreConstantBetweenLoads`, `DisposedIsTerminal`,
`OnlyControlWritesChangeTheBank`, `StoredBytesChangeOnlyByTheirWrites`. -/

namespace Sys2Proof

/-- A store that differs after a write differs at the byte written. -/
theorem Memory.eq_of_read_write_ne {n : Nat} {m : Memory} (h : Memory.wf n m = true) {a x : Nat} {v : Byte}
    (hne : (m.write a v).read x ≠ m.read x) : x = a := by
  rw [Memory.read_write h] at hne
  exact Decidable.byContradiction fun hx => hne (if_neg (Ne.symm hx))

namespace Machine

/-! ### The image and the lifecycle -/

/-- The state has a cartridge with the image and the lifecycle of `c`. -/
def KeepsRomAndLife (c : Cartridge) (s : State) : Prop :=
  ∃ c', s.cart = some c' ∧ c'.rom = c.rom ∧ c'.life = c.life

/-- Only HOST.LOAD and HOST.DISPOSE replace the image or the lifecycle. -/
theorem ExecEffect.keepsRomAndLife {s t : State} {i : Instr} {c : Cartridge} (he : ExecEffect s i t)
    (hload : ∀ im, i ≠ .hostLoad im) (hdispose : i ≠ .hostDispose) (h : KeepsRomAndLife c s) :
    KeepsRomAndLife c t := by
  cases he
  case bank c' hd a v hc _ _ =>
    obtain ⟨c'', hc'', hrom, hlife⟩ := h
    obtain rfl : c' = c'' := Option.some.inj (hc.symm.trans hc'')
    exact ⟨writeBank c' v, rfl, hrom, hlife⟩
  case load im _ _ => exact absurd rfl (hload im)
  case loadFault im _ _ => exact absurd rfl (hload im)
  case dispose => exact absurd rfl hdispose
  all_goals exact h

theorem step_keepsRomAndLife {s t : State} {c : Cartridge} (h : KeepsRomAndLife c s)
    (hq : ∀ r, s.pending.head? = some r → r.sel ≠ 0x5 ∧ r.sel ≠ 0x7) (hst : step s = .next t) :
    KeepsRomAndLife c t := by
  obtain ⟨-, rfl⟩ | ⟨r, rest, hp, f | ⟨i, _, hi, he⟩⟩ := step_effect hst
  · exact h
  · exact h
  · obtain ⟨h5, h7⟩ := hq r (by simp [hp])
    refine he.keepsRomAndLife ?_ ?_ h
    · rintro im rfl
      exact h5 hi.sel_hostLoad
    · rintro rfl
      exact h7 hi.sel_hostDispose

/-- The exposed metadata is a function of the lifecycle. -/
theorem metadata_eq_of_life {s t : State} {c c' : Cartridge} (hs : s.cart = some c)
    (ht : t.cart = some c') (h : c'.life = c.life) : metadata t = metadata s := by
  obtain ⟨rom, bank, life⟩ := c
  obtain ⟨rom', bank', life'⟩ := c'
  simp only at h
  subst h
  cases life' <;> simp [metadata, hs, ht]

/-- Settles O38: the image and the lifecycle are what a step without LOAD or DISPOSE keeps, and the
metadata is read off the lifecycle. -/
theorem romAndHeaderAreConstantBetweenLoads : Obligations.RomAndHeaderAreConstantBetweenLoads := by
  intro k s t c hc hq hr
  obtain ⟨c', hc', hrom, hlife⟩ :=
    run_keeps (fun _ _ => step_keepsRomAndLife) ⟨c, hc, rfl, rfl⟩ hq hr
  exact ⟨c', hc', hrom, hlife, metadata_eq_of_life hc hc' hlife⟩

/-! ### Disposal -/

/-- Only HOST.LOAD replaces a disposed cartridge by one that is not: a control write needs a loaded one. -/
theorem ExecEffect.isDisposed {s t : State} {i : Instr} (he : ExecEffect s i t)
    (hload : ∀ im, i ≠ .hostLoad im) (h : IsDisposed s) : IsDisposed t := by
  cases he
  case bank c' hd a v hc hl _ =>
    obtain ⟨c, hc', hl'⟩ := h
    obtain rfl : c = c' := Option.some.inj (hc'.symm.trans hc)
    rw [hl] at hl'
    cases hl'
  case load im _ _ => exact absurd rfl (hload im)
  case loadFault im _ _ => exact absurd rfl (hload im)
  case dispose => exact ⟨_, rfl, rfl⟩
  all_goals exact h

theorem step_isDisposed {s t : State} (h : IsDisposed s)
    (hq : ∀ r, s.pending.head? = some r → r.sel ≠ 0x5) (hst : step s = .next t) : IsDisposed t := by
  obtain ⟨-, rfl⟩ | ⟨r, rest, hp, f | ⟨i, _, hi, he⟩⟩ := step_effect hst
  · exact h
  · exact h
  · refine he.isDisposed ?_ h
    rintro im rfl
    exact hq r (by simp [hp]) hi.sel_hostLoad

/-- Settles O39: a step without LOAD keeps both the disposal and the invariant of the block, which says
what a disposed cartridge holds. -/
theorem disposedIsTerminal : Obligations.DisposedIsTerminal := by
  intro k s t c hinv hc hl hq hr
  obtain ⟨hinv', c', hc', hl'⟩ : BlockInv t ∧ IsDisposed t :=
    run_keeps (P := fun u => BlockInv u ∧ IsDisposed u)
      (fun _ _ ⟨hi, hd⟩ hq hst => ⟨step_keeps_blockInv hi hst, step_isDisposed hd hq hst⟩)
      ⟨hinv, c, hc, hl⟩ hq hr
  obtain ⟨hrom, hbank⟩ := hinv'.disposedEmpty c' hc' hl'
  exact ⟨c', hc', hl', by rw [hrom]; rfl, hbank⟩

/-! ### The bank register -/

/-- The control window is 0x2000 to 0x3FFF (R52). -/
theorem mem_window_of_cartWriteRegion {a : Addr} (h : cartWriteRegion a = .bank) :
    0x2000 ≤ a.toNat ∧ a.toNat ≤ 0x3FFF := by
  rw [cartWriteRegion_eq] at h
  grind

/-- A request that runs an instruction which sets the bank is a write of the control window. -/
theorem Serves.controlWrite {r : Request} {i : Instr} {a : Addr} {v : Byte} (h : Serves r i)
    (hi : i = .cartWrBank a v ∨ ((i = .busWrCart a v ∨ i = .busWrEram a v) ∧ cartWriteRegion a = .bank)) :
    (r.sel = 0x1 ∨ r.sel = 0x3) ∧ ∃ z : Nat, r.addr = .int z ∧ 0x2000 ≤ z ∧ z ≤ 0x3FFF := by
  obtain rfl | ⟨rfl | rfl, ha⟩ := hi
  · obtain ⟨hs, haddr⟩ := h.cartWrite rfl
    exact ⟨.inr hs, a.toNat, haddr, inRange_iff.mp h.wf⟩
  · obtain ⟨hs, haddr⟩ := h.busWrite rfl
    exact ⟨.inl hs, a.toNat, haddr, mem_window_of_cartWriteRegion ha⟩
  · obtain ⟨hs, haddr⟩ := h.busWrite rfl
    exact ⟨.inl hs, a.toNat, haddr, mem_window_of_cartWriteRegion ha⟩

/-- What a change of the bank says of the request that was served. -/
theorem ServeEffect.bank_changed {s t : State} {r : Request} {c c' : Cartridge} (he : ServeEffect s r t)
    (hs : s.cart = some c) (ht : t.cart = some c') (hne : c'.bank ≠ c.bank) :
    r.sel = 0x5 ∨ r.sel = 0x7 ∨
      ((r.sel = 0x1 ∨ r.sel = 0x3) ∧ ∃ z : Nat, r.addr = .int z ∧ 0x2000 ≤ z ∧ z ≤ 0x3FFF) := by
  have hkept : t.cart ≠ s.cart := fun h => hne (by rw [hs, ht] at h; rw [Option.some.inj h])
  obtain f | ⟨i, _, hi, he⟩ := he
  · exact absurd rfl hkept
  · cases he
    case bank c₀ hd a v _ _ hw => exact .inr (.inr (hi.controlWrite hw))
    case load => exact .inl hi.sel_hostLoad
    case loadFault => exact .inl hi.sel_hostLoad
    case dispose => exact .inr (.inl hi.sel_hostDispose)
    all_goals exact absurd rfl hkept

/-- Settles O40: of the effects of a step, these alone leave another cartridge. -/
theorem onlyControlWritesChangeTheBank : Obligations.OnlyControlWritesChangeTheBank := by
  intro s t c c' hst hs ht hne
  obtain ⟨-, rfl⟩ | ⟨r, rest, hp, he⟩ := step_effect hst
  · exact absurd (by rw [Option.some.inj (hs.symm.trans ht)]) hne
  · exact ⟨r, rest, hp, he.bank_changed hs ht hne⟩

/-! ### The bytes of the bus-owned stores -/

/-- A request that runs an instruction of BUS.WR stores to the byte its address names, if any. -/
theorem Serves.storesTo_eq {r : Request} {i : Instr} {a : Addr} (h : Serves r i)
    (hw : (encode i).word = makeWord 0x1 a) : storesTo r = storeAt a.toNat := by
  obtain ⟨hs, ha⟩ := h.busWrite hw
  simp [storesTo, hs, ha]

/-- A byte that a write of work RAM changes is the one at its index. -/
theorem Bus.eq_of_at_write_wram {b : Bus} (h : Memory.wf Config.wramSize b.wram = true) {a : Nat} {v : Byte}
    {x : StoreByte} (hne : ({ b with wram := b.wram.write a v } : Bus).at x ≠ b.at x) : x = .wram a := by
  cases x with
  | wram i => rw [Memory.eq_of_read_write_ne h hne]
  | hram i => exact absurd rfl hne
  | ie => exact absurd rfl hne

/-- A byte that a write of high RAM changes is the one at its index. -/
theorem Bus.eq_of_at_write_hram {b : Bus} (h : Memory.wf Config.hramSize b.hram = true) {a : Nat} {v : Byte}
    {x : StoreByte} (hne : ({ b with hram := b.hram.write a v } : Bus).at x ≠ b.at x) : x = .hram a := by
  cases x with
  | wram i => exact absurd rfl hne
  | hram i => rw [Memory.eq_of_read_write_ne h hne]
  | ie => exact absurd rfl hne

/-- A byte that a write of the interrupt-enable byte changes is that byte. -/
theorem Bus.eq_of_at_write_ie {b : Bus} {v : Byte} {x : StoreByte}
    (hne : ({ b with ie := v } : Bus).at x ≠ b.at x) : x = .ie := by
  cases x with
  | wram i => exact absurd rfl hne
  | hram i => exact absurd rfl hne
  | ie => rfl

/-- A byte that changes when another bus is put in differs between the two buses. -/
theorem at_ne_of_storeByte_ne {s : State} {b b' : Bus} {p : Response} {x : StoreByte} (hb : s.bus = some b)
    (hne : storeByte ((s.setBus (some b')).setResponse p) x ≠ storeByte s x) : b'.at x ≠ b.at x := by
  simpa [storeByte, hb] using hne

theorem storeAt_wram {a : Addr} (h : 0xC000 ≤ a.toNat ∧ a.toNat ≤ 0xDFFF) :
    storeAt a.toNat = some (.wram (wramIndex a)) := by
  rw [storeAt, if_pos h, wramIndex_eq h]

theorem storeAt_echo {a : Addr} (h : 0xE000 ≤ a.toNat ∧ a.toNat ≤ 0xFDFF) :
    storeAt a.toNat = some (.wram (echoIndex a)) := by
  rw [storeAt, if_neg (by omega), if_pos h, echoIndex_eq h]

theorem storeAt_hram {a : Addr} (h : 0xFF80 ≤ a.toNat ∧ a.toNat ≤ 0xFFFE) :
    storeAt a.toNat = some (.hram (hramIndex a)) := by
  rw [storeAt, if_neg (by omega), if_neg (by omega), if_pos h, hramIndex_eq h]

/-- What a change of a byte says of the request that was served. -/
theorem ServeEffect.storeByte_changed {s t : State} {r : Request} {x : StoreByte} (he : ServeEffect s r t)
    (hinv : BlockInv s) (hne : storeByte t x ≠ storeByte s x) :
    storesTo r = some x ∨ r.sel = 0x5 ∨ r.sel = 0x6 := by
  obtain f | ⟨i, _, hi, he⟩ := he
  · exact absurd rfl hne
  · cases he
    case wram b a v hb =>
      obtain ⟨hw, -⟩ := hinv.busCanonical b hb
      obtain rfl := Bus.eq_of_at_write_wram hw (at_ne_of_storeByte_ne hb hne)
      exact .inl ((hi.storesTo_eq rfl).trans (storeAt_wram (inRange_iff.mp hi.wf)))
    case echo b a v hb =>
      obtain ⟨hw, -⟩ := hinv.busCanonical b hb
      obtain rfl := Bus.eq_of_at_write_wram hw (at_ne_of_storeByte_ne hb hne)
      exact .inl ((hi.storesTo_eq rfl).trans (storeAt_echo (inRange_iff.mp hi.wf)))
    case hram b a v hb =>
      obtain ⟨-, hh⟩ := hinv.busCanonical b hb
      obtain rfl := Bus.eq_of_at_write_hram hh (at_ne_of_storeByte_ne hb hne)
      exact .inl ((hi.storesTo_eq rfl).trans (storeAt_hram (inRange_iff.mp hi.wf)))
    case ie b v hb =>
      obtain rfl := Bus.eq_of_at_write_ie (at_ne_of_storeByte_ne hb hne)
      exact .inl (hi.storesTo_eq (a := 0xFFFF) rfl)
    case load => exact .inr (.inl hi.sel_hostLoad)
    case loadFault => exact .inr (.inl hi.sel_hostLoad)
    case attach => exact .inr (.inr hi.sel_hostAttach)
    all_goals exact absurd rfl hne

/-- Settles O41: of the effects of a step, these alone leave another bus, and a canonical store changes
only where it is written. -/
theorem storedBytesChangeOnlyByTheirWrites : Obligations.StoredBytesChangeOnlyByTheirWrites := by
  intro s t x hinv hst hne
  obtain ⟨-, rfl⟩ | ⟨r, rest, hp, he⟩ := step_effect hst
  · exact absurd rfl hne
  · exact ⟨r, rest, hp, he.storeByte_changed (hinv.setPending rest) hne⟩

end Machine

end Sys2Proof
end

section
/-! PROOFS. No transaction reads more of a header than `N`: every instruction commutes with forgetting
the rest of it, `MetadataInfluencesNothing`. -/

namespace Sys2Proof.Machine

/-! ### Forgetting the metadata of a cartridge and of an outcome -/

/-- The cartridge with only `N` of its header kept. -/
def Cartridge.onlyBanks (c : Cartridge) : Cartridge := { c with life := c.life.onlyBanks }

/-- The outcome with the metadata of its next state forgotten. -/
def forgetOutcome : Host.Outcome State Fault Refusal → Host.Outcome State Fault Refusal
  | .next t => .next (forgetMetadata t)
  | .fault f => .fault f
  | .refused x => .refused x

@[simp] theorem forgetMetadata_params (s : State) : (forgetMetadata s).params = s.params := rfl
@[simp] theorem forgetMetadata_bus (s : State) : (forgetMetadata s).bus = s.bus := rfl
@[simp] theorem forgetMetadata_response (s : State) : (forgetMetadata s).response = s.response := rfl
@[simp] theorem forgetMetadata_cart (s : State) :
    (forgetMetadata s).cart = s.cart.map Cartridge.onlyBanks := rfl

@[simp] theorem Cartridge.onlyBanks_onlyBanks (c : Cartridge) : c.onlyBanks.onlyBanks = c.onlyBanks := by
  obtain ⟨rom, bank, life⟩ := c
  cases life <;> rfl

@[simp] theorem forgetMetadata_setCart (s : State) (c : Option Cartridge) :
    forgetMetadata (s.setCart c) = (forgetMetadata s).setCart (c.map Cartridge.onlyBanks) := rfl

@[simp] theorem forgetMetadata_setBus (s : State) (b : Option Bus) :
    forgetMetadata (s.setBus b) = (forgetMetadata s).setBus b := rfl

@[simp] theorem forgetMetadata_setResponse (s : State) (r : Response) :
    forgetMetadata (s.setResponse r) = (forgetMetadata s).setResponse r := rfl

@[simp] theorem forgetMetadata_forgetMetadata (s : State) :
    forgetMetadata (forgetMetadata s) = forgetMetadata s := by
  obtain ⟨params, cart, bus, pending, response⟩ := s
  cases cart with
  | none => rfl
  | some c => simpa [forgetMetadata, Cartridge.onlyBanks] using congrArg Cartridge.life c.onlyBanks_onlyBanks

/-- An outcome that forgets to a next state is one. -/
theorem next_of_forgetOutcome_eq {o : Host.Outcome State Fault Refusal} {t : State}
    (h : forgetOutcome o = .next (forgetMetadata t)) :
    ∃ t', o = .next t' ∧ forgetMetadata t' = forgetMetadata t := by
  cases o with
  | next t' => exact ⟨t', rfl, by simpa [forgetOutcome] using h⟩
  | fault f => cases h
  | refused x => cases h

/-! ### The operations on a state whose metadata is forgotten

Each states that the operation, run on `forgetMetadata s`, has the outcome it has on `s`, up to the
metadata of the next state. -/

@[simp] theorem forgetOutcome_respond (r : Response) (s : State) :
    forgetOutcome (respond r (forgetMetadata s)) = forgetOutcome (respond r s) := by
  simp [respond, forgetOutcome]

@[simp] theorem forgetOutcome_raise (f : FaultRecord) (s : State) :
    forgetOutcome (raise f (forgetMetadata s)) = forgetOutcome (raise f s) :=
  forgetOutcome_respond _ s

@[simp] theorem forgetOutcome_finishRead (r : Except FaultRecord Byte) (s : State) :
    forgetOutcome (finishRead r (forgetMetadata s)) = forgetOutcome (finishRead r s) := by
  cases r <;> simp [forgetOutcome]

@[simp] theorem forgetOutcome_finishBusWrite (b : Bus) (s : State) :
    forgetOutcome (finishBusWrite b (forgetMetadata s)) = forgetOutcome (finishBusWrite b s) := by
  simp [finishBusWrite, respond, forgetOutcome]

@[simp] theorem forgetOutcome_finishCartWrite (r : Except FaultRecord Cartridge) (s : State) :
    forgetOutcome (finishCartWrite (r.map Cartridge.onlyBanks) (forgetMetadata s)) =
      forgetOutcome (finishCartWrite r s) := by
  cases r <;> simp [Except.map, forgetOutcome]

theorem forgetOutcome_withBus {s : State} {k k' : Bus → Host.Outcome State Fault Refusal}
    (h : ∀ b, forgetOutcome (k' b) = forgetOutcome (k b)) :
    forgetOutcome (withBus (forgetMetadata s) k') = forgetOutcome (withBus s k) := by
  cases hb : s.bus with
  | none => rw [withBus_none hb, withBus_none (s := forgetMetadata s) hb]
  | some b => rw [withBus_some hb, withBus_some (s := forgetMetadata s) hb, h]

theorem forgetOutcome_withCart {s : State} {k k' : Cartridge → Host.Outcome State Fault Refusal}
    (h : ∀ c, forgetOutcome (k' c.onlyBanks) = forgetOutcome (k c)) :
    forgetOutcome (withCart (forgetMetadata s) k') = forgetOutcome (withCart s k) := by
  cases hc : s.cart with
  | none => rw [withCart_none hc, withCart_none (s := forgetMetadata s) (by simp [hc])]
  | some c =>
    rw [withCart_some hc, withCart_some (s := forgetMetadata s) (c := c.onlyBanks) (by simp [hc]), h]

/-- A guarded read whose region takes no more of the header than `N`. -/
theorem guardRead_onlyBanks {c : Cartridge} {k k' : Header → Except FaultRecord Byte}
    (h : ∀ hd : Header, k' hd.onlyBanks = k hd) : guardRead c.onlyBanks k' = guardRead c k := by
  obtain ⟨rom, bank, life⟩ := c
  cases life with
  | loaded hd => exact h hd
  | disposed => rfl

/-- A guarded write whose region takes no more of the header than `N`. -/
theorem guardWrite_onlyBanks {c : Cartridge} {k k' : Header → Except FaultRecord Cartridge}
    (h : ∀ hd : Header, k' hd.onlyBanks = (k hd).map Cartridge.onlyBanks) :
    guardWrite c.onlyBanks k' = (guardWrite c k).map Cartridge.onlyBanks := by
  obtain ⟨rom, bank, life⟩ := c
  cases life with
  | loaded hd => exact h hd
  | disposed => rfl

@[simp] theorem cartRead_onlyBanks (c : Cartridge) (a : Addr) : cartRead c.onlyBanks a = cartRead c a := by
  refine guardRead_onlyBanks fun hd => ?_
  cases cartReadRegion a <;> rfl

@[simp] theorem cartWrite_onlyBanks (c : Cartridge) (a : Addr) (v : Byte) :
    cartWrite c.onlyBanks a v = (cartWrite c a v).map Cartridge.onlyBanks := by
  refine guardWrite_onlyBanks fun hd => ?_
  cases cartWriteRegion a <;> rfl

/-! ### The instructions on a state whose metadata is forgotten -/

/-- A guarded cartridge-port read, whatever its region answers. -/
theorem forgetOutcome_guardRead {s : State} {k : Cartridge → Header → Except FaultRecord Byte}
    (h : ∀ c hd, k c.onlyBanks hd.onlyBanks = k c hd) :
    forgetOutcome (withCart (forgetMetadata s) fun c => finishRead (guardRead c (k c)) (forgetMetadata s)) =
      forgetOutcome (withCart s fun c => finishRead (guardRead c (k c)) s) :=
  forgetOutcome_withCart fun c => by rw [guardRead_onlyBanks (h c), forgetOutcome_finishRead]

/-- A guarded cartridge-port write, whatever its region does. -/
theorem forgetOutcome_guardWrite {s : State} {k : Cartridge → Header → Except FaultRecord Cartridge}
    (h : ∀ c hd, k c.onlyBanks hd.onlyBanks = (k c hd).map Cartridge.onlyBanks) :
    forgetOutcome (withCart (forgetMetadata s) fun c =>
        finishCartWrite (guardWrite c (k c)) (forgetMetadata s)) =
      forgetOutcome (withCart s fun c => finishCartWrite (guardWrite c (k c)) s) :=
  forgetOutcome_withCart fun c => by rw [guardWrite_onlyBanks (h c), forgetOutcome_finishCartWrite]

/-- An instruction's outcome depends on the header, and passes it on, through `N` alone. -/
theorem exec_forgetMetadata (i : Instr) (s : State) :
    forgetOutcome (exec i (forgetMetadata s)) = forgetOutcome (exec i s) := by
  cases i
  case busRdCart | busRdEram =>
    exact forgetOutcome_withBus fun b => forgetOutcome_withCart fun c => by simp
  case busWrCart | busWrEram =>
    exact forgetOutcome_withBus fun b => forgetOutcome_withCart fun c => by
      rw [cartWrite_onlyBanks, forgetOutcome_finishCartWrite]
  case busRdStub | busRdWram | busRdEcho | busRdHram | busRdIe | busWrStub =>
    exact forgetOutcome_withBus fun b => forgetOutcome_respond _ s
  case busWrWram | busWrEcho | busWrHram | busWrIe =>
    exact forgetOutcome_withBus fun b => forgetOutcome_finishBusWrite _ s
  case cartRdRom0 | cartRdRomx | cartRdOor | cartRdEram =>
    exact forgetOutcome_guardRead fun c hd => rfl
  case cartWrRomlo | cartWrBank | cartWrRomx | cartWrOor | cartWrEram =>
    exact forgetOutcome_guardWrite fun c hd => rfl
  case hostHdr im =>
    simp only [exec, execHostHdr, forgetMetadata_params]
    cases parseHeader s.params im <;> simp
  case hostLoad im =>
    simp only [exec, execHostLoad, forgetMetadata_params]
    cases parseHeader s.params im <;> simp [respond, raise, forgetOutcome]
  case hostAttach => exact forgetOutcome_withCart fun c => forgetOutcome_finishBusWrite _ s
  case hostDispose => exact forgetOutcome_withCart fun c => by simp [respond, forgetOutcome]
  case hostRomsize => exact forgetOutcome_withCart fun c => forgetOutcome_respond _ s

/-- Settles O57: both states have the outcome of their common forgetting, and the response is part of
what is compared. -/
theorem metadataInfluencesNothing : Obligations.MetadataInfluencesNothing := by
  intro i s s' t hs ht
  have ho : forgetOutcome (exec i s') = .next (forgetMetadata t) := by
    rw [← exec_forgetMetadata, ← hs, exec_forgetMetadata, ht]
    rfl
  obtain ⟨t', ht', hf⟩ := next_of_forgetOutcome_eq ho
  exact ⟨t', ht', by simpa using congrArg State.response hf, hf⟩

end Sys2Proof.Machine
end

section
/-! PROOFS. The values reset leaves, and the range of the effective bank:
`ResetSequenceLeavesTheResetValues`, `EffectiveBankStaysInRange`. -/

namespace Sys2Proof.Machine

/-! ### The host operations where their components exist -/

/-- HOST.LOAD of an image that decodes (R130). -/
theorem exec_hostLoad_of_ok {s : State} {im : Image} {h : Header} (hp : parseHeader s.params im = .ok h) :
    exec (.hostLoad im) s = .next (((s.setCart (some
      { rom := im.normal, bank := Config.bankReset, life := .loaded h })).setBus none).setResponse .ok) := by
  simp [exec, execHostLoad, hp]

/-- The stores HOST.ATTACH makes of a draw (R160). -/
def drawnBus (ram : RamInit) : Bus where
  wram := Memory.ofCells Config.wramSize ram.wram0
  hram := Memory.ofCells Config.hramSize ram.hram0
  ie := ram.ie0

/-- HOST.ATTACH on a cartridge (R160). -/
theorem exec_hostAttach_of_cart {s : State} {c : Cartridge} (hc : s.cart = some c) (ram : RamInit) :
    exec (.hostAttach ram) s = .next ((s.setBus (some (drawnBus ram))).setResponse .ok) := by
  simp [exec, execHostAttach, hc, drawnBus]

/-- HOST.DISPOSE of a cartridge (R131). -/
theorem exec_hostDispose_of_cart {s : State} {c : Cartridge} (hc : s.cart = some c) :
    exec .hostDispose s = .next ((s.setCart (some
      { rom := Image.empty, bank := Config.bankReset, life := .disposed })).setResponse .ok) := by
  simp [exec, execHostDispose, hc]

/-! ### The effective bank -/

theorem effBank_of_one_bank (bank : BitVec 5) {n : BankCount} (hn : n.val = 1) : effBank bank n = 0 := by
  simp [effBank, hn, Nat.mod_one]

/-- The second coercion keeps the effective bank off 0 where there is another bank. -/
theorem effBank_pos (bank : BitVec 5) {n : BankCount} (hn : 2 ≤ n.val) : 1 ≤ effBank bank n := by
  simp only [effBank]
  generalize (if bank.toNat % 0x20 = 0 then 1 else bank.toNat % 0x20) = b₁
  split
  case isTrue => exact Nat.le_refl 1
  case isFalse hb₂ => omega

theorem effBank_lt (bank : BitVec 5) (n : BankCount) : effBank bank n < n.val := by
  have hmod : ∀ b, b % n.val < n.val := fun b => Nat.mod_lt b n.property
  simp only [effBank]
  generalize (if bank.toNat % 0x20 = 0 then 1 else bank.toNat % 0x20) = b₁
  split
  case isTrue hb₂ => exact hb₂.2
  case isFalse => exact hmod b₁

/-- The effective bank that `BANK` = 1 selects. -/
theorem effBank_one (n : BankCount) : effBank 1 n = if n.val = 1 then 0 else 1 := by
  by_cases hn : n.val = 1
  · rw [if_pos hn, effBank_of_one_bank 1 hn]
  · have := n.property
    rw [if_neg hn]
    simp [effBank, Nat.mod_eq_of_lt (show 1 < n.val by omega)]

/-- Settles O42: the bounds of the effective bank. -/
theorem effectiveBankStaysInRange : Obligations.EffectiveBankStaysInRange := by
  intro bank n
  have hlt := effBank_lt bank n
  exact ⟨fun hn => ⟨effBank_pos bank hn, by omega⟩, effBank_of_one_bank bank⟩

/-- Settles O34: each of the three operations runs on what the one before it left; the canonical listings
have the bytes they were made of. -/
theorem resetSequenceLeavesTheResetValues : Obligations.ResetSequenceLeavesTheResetValues := by
  intro s im ram h hp
  exact ⟨_, _, _, _, drawnBus ram, exec_hostLoad_of_ok hp, exec_hostAttach_of_cart rfl ram, rfl, rfl,
    im.normal_size, im.byte_normal, rfl, rfl,
    fun i hi => Memory.read_ofCells _ _ hi, fun i hi => Memory.read_ofCells _ _ hi, rfl,
    effBank_one h.romBanks, exec_hostDispose_of_cart rfl, rfl, rfl⟩

end Sys2Proof.Machine
end

section
/-! PROOFS. The instruction an addressed request runs, and what every instruction makes of the response
and the configuration it finds: `StepRunsTheDecodedTransaction`, `StepServesOneTransactionInOrder`. -/

namespace Sys2Proof.Machine

/-! ### Addresses as numbers -/

/-- A number of at most 16 bits is an address. -/
theorem exists_addr_of_le {z : Nat} (h : z ≤ 0xFFFF) : ∃ a : Addr, a.toNat = z :=
  ⟨BitVec.ofNat 16 z, by rw [BitVec.toNat_ofNat]; omega⟩

/-! ### The instruction a request runs -/

theorem acceptPacket_of_decode {p : Packet} {i : Instr} (h : decode p = .ok i) :
    acceptPacket p = .instr i := by
  simp [acceptPacket, h]

theorem acceptAddressed_of_int {r : Request} {a : Addr} (h : r.addr = .int (a.toNat : Nat)) :
    acceptAddressed r = acceptPacket (packetAt r a) := by
  rw [acceptAddressed, h, checkAddress_int]

/-- A bus operation on a bus that exists, at an address that passes its check. -/
theorem serve_of_bus {r : Request} {s : State} {a : Addr} {i : Instr} (hs : r.sel.toNat < 2)
    (hb : s.bus ≠ none) (ha : r.addr = .int (a.toNat : Nat)) (hd : decode (packetAt r a) = .ok i) :
    serve r s = exec i s := by
  obtain ⟨b, hb⟩ := Option.ne_none_iff_exists'.mp hb
  simp [serve, accept, hs, hb, acceptAddressed_of_int ha, acceptPacket_of_decode hd]

/-- A cartridge-port operation on a cartridge that exists, at an address that passes its check. -/
theorem serve_of_cart {r : Request} {s : State} {a : Addr} {i : Instr} (hs : ¬ r.sel.toNat < 2)
    (hs' : r.sel.toNat < 4) (hc : s.cart ≠ none) (ha : r.addr = .int (a.toNat : Nat))
    (hd : decode (packetAt r a) = .ok i) : serve r s = exec i s := by
  obtain ⟨c, hc⟩ := Option.ne_none_iff_exists'.mp hc
  simp [serve, accept, hs, hs', hc, acceptAddressed_of_int ha, acceptPacket_of_decode hd]

/-- A HOST operation, whatever its address (R80). -/
theorem serve_of_host {r : Request} {s : State} {i : Instr} (hs : ¬ r.sel.toNat < 4)
    (hd : decode (packetAt r 0) = .ok i) : serve r s = exec i s := by
  have hs' : ¬ r.sel.toNat < 2 := by omega
  simp only [serve, accept, if_neg hs, if_neg hs', acceptPacket_of_decode hd]

theorem serve_of_no_bus {r : Request} {s : State} (hs : r.sel.toNat < 2) (hb : s.bus = none) :
    serve r s = .refused .noBus := by
  simp [serve, accept, hs, hb]

theorem serve_of_no_cart {r : Request} {s : State} (hs : ¬ r.sel.toNat < 2) (hs' : r.sel.toNat < 4)
    (hc : s.cart = none) : serve r s = .refused .noCartridge := by
  simp [serve, accept, hs, hs', hc]

theorem decode_packetAt_busRead {r : Request} (h : r.sel = 0x0) (a : Addr) :
    decode (packetAt r a) = .ok (decodeBusRead a) := by
  simp [decode, packetAt, h]

theorem decode_packetAt_busWrite {r : Request} (h : r.sel = 0x1) (a : Addr) :
    decode (packetAt r a) = .ok (decodeBusWrite a (maskData r.data)) := by
  simp [decode, packetAt, h]

theorem decode_packetAt_cartRead {r : Request} (h : r.sel = 0x2) (a : Addr) :
    decode (packetAt r a) = .ok (decodeCartRead a) := by
  simp [decode, packetAt, h]

theorem decode_packetAt_cartWrite {r : Request} (h : r.sel = 0x3) (a : Addr) :
    decode (packetAt r a) = .ok (decodeCartWrite a (maskData r.data)) := by
  simp [decode, packetAt, h]

/-- The address bits of a HOST word are ignored (R80). -/
theorem decode_packetAt_host {p : Packet} (h : ¬ slice 19 16 p.word < 4) (a : Addr) :
    decode (packetAt (requestOf p) a) = decode p := by
  have hlt : slice 19 16 p.word < 16 := slice_lt 19 16 p.word
  simp only [decode, packetAt, requestOf, wordSel_toNat, slice_makeWord_sel _ hlt]
  split
  case h_1 | h_2 | h_3 | h_4 => omega
  case h_10 => rw [wordSel_makeWord _ hlt, wordSel]
  all_goals rfl

/-! ### With no bus, with no cartridge -/

theorem exec_decodeBusRead_of_no_bus {s : State} (h : s.bus = none) (a : Addr) :
    exec (decodeBusRead a) s = .refused .noBus := by
  unfold decodeBusRead
  cases busRegion a <;> exact withBus_none h _

theorem exec_decodeBusWrite_of_no_bus {s : State} (h : s.bus = none) (a : Addr) (v : Byte) :
    exec (decodeBusWrite a v) s = .refused .noBus := by
  unfold decodeBusWrite
  cases busRegion a <;> exact withBus_none h _

theorem exec_decodeCartRead_of_no_cart {s : State} (h : s.cart = none) (a : Addr) :
    exec (decodeCartRead a) s = .refused .noCartridge := by
  unfold decodeCartRead
  cases cartReadRegion a <;> exact withCart_none h _

theorem exec_decodeCartWrite_of_no_cart {s : State} (h : s.cart = none) (a : Addr) (v : Byte) :
    exec (decodeCartWrite a v) s = .refused .noCartridge := by
  unfold decodeCartWrite
  cases cartWriteRegion a <;> exact withCart_none h _

/-- What a bus word decodes to is refused with no bus. -/
theorem exec_of_decode_of_no_bus {p : Packet} {i : Instr} {s : State} (hd : decode p = .ok i)
    (hs : slice 19 16 p.word < 2) (hb : s.bus = none) : exec i s = .refused .noBus := by
  obtain h | h : slice 19 16 p.word = 0 ∨ slice 19 16 p.word = 1 := by omega
  · simp only [decode, h, Except.ok.injEq] at hd
    exact hd ▸ exec_decodeBusRead_of_no_bus hb _
  · simp only [decode, h, Except.ok.injEq] at hd
    exact hd ▸ exec_decodeBusWrite_of_no_bus hb _ _

/-- What a cartridge-port word decodes to is refused with no cartridge. -/
theorem exec_of_decode_of_no_cart {p : Packet} {i : Instr} {s : State} (hd : decode p = .ok i)
    (hs : ¬ slice 19 16 p.word < 2) (hs' : slice 19 16 p.word < 4) (hc : s.cart = none) :
    exec i s = .refused .noCartridge := by
  obtain h | h : slice 19 16 p.word = 2 ∨ slice 19 16 p.word = 3 := by omega
  · simp only [decode, h, Except.ok.injEq] at hd
    exact hd ▸ exec_decodeCartRead_of_no_cart hc _
  · simp only [decode, h, Except.ok.injEq] at hd
    exact hd ▸ exec_decodeCartWrite_of_no_cart hc _ _

/-- Serving a request that presents a packet runs what the packet decodes to: where the component it
names does not exist, both are the same refusal. -/
theorem serve_requestOf {p : Packet} {i : Instr} (hd : decode p = .ok i) (s : State) :
    serve (requestOf p) s = exec i s := by
  have hsel : (requestOf p).sel.toNat = slice 19 16 p.word := wordSel_toNat p.word
  have hpacket : decode (packetAt (requestOf p) (wordAddr p.word)) = .ok i := by
    rw [packetAt_requestOf, hd]
  by_cases h2 : slice 19 16 p.word < 2
  · cases hb : s.bus with
    | none => rw [serve_of_no_bus (by rwa [hsel]) hb, exec_of_decode_of_no_bus hd h2 hb]
    | some b => exact serve_of_bus (by rwa [hsel]) (by simp [hb]) (requestOf_addr p) hpacket
  by_cases h4 : slice 19 16 p.word < 4
  · cases hc : s.cart with
    | none =>
      rw [serve_of_no_cart (by rwa [hsel]) (by rwa [hsel]) hc, exec_of_decode_of_no_cart hd h2 h4 hc]
    | some c =>
      exact serve_of_cart (by rwa [hsel]) (by rwa [hsel]) (by simp [hc]) (requestOf_addr p) hpacket
  · exact serve_of_host (by rwa [hsel]) (by rw [decode_packetAt_host h4, hd])

/-- Settles O5: the step is the serving of the oldest request, on what remains of the stream. -/
theorem stepRunsTheDecodedTransaction : Obligations.StepRunsTheDecodedTransaction := by
  intro s p i rest hp hd
  rw [step_cons hp]
  exact serve_requestOf hd (s.setPending rest)

/-! ### The configuration and the response -/

theorem ExecEffect.params_eq {s t : State} {i : Instr} (h : ExecEffect s i t) :
    t.params = s.params := by
  cases h <;> rfl

/-- No step changes the configuration. -/
theorem step_params {s t : State} (h : step s = .next t) : t.params = s.params := by
  obtain ⟨-, rfl⟩ | ⟨r, rest, -, f | ⟨i, _, -, he⟩⟩ := step_effect h
  · rfl
  · rfl
  · exact he.params_eq

/-- Settles O13: a step takes the head off the stream, and with none waiting it is idle. -/
theorem stepServesOneTransactionInOrder : Obligations.StepServesOneTransactionInOrder :=
  ⟨fun _ _ h => ⟨step_pending h, step_params h⟩, fun s hp => by simp [step, hp]⟩

@[simp] theorem State.setCart_setCart (s : State) (c c' : Option Cartridge) :
    (s.setCart c).setCart c' = s.setCart c' := rfl

@[simp] theorem State.setBus_setBus (s : State) (b b' : Option Bus) :
    (s.setBus b).setBus b' = s.setBus b' := rfl

/-- No instruction reads the outcome the transaction before it left. -/
theorem exec_setResponse (i : Instr) (s : State) (p : Response) :
    exec i (s.setResponse p) = exec i s := by
  cases i <;> rfl

end Sys2Proof.Machine
end

section
/-! PROOFS. The address maps of 20_memory.md R51 and R52: `BusReadFollowsAddressMap`,
`BusWriteFollowsAddressMap`, `CartridgePortFollowsAddressMap`. -/

namespace Sys2Proof.Machine

/-! ### The cartridge port -/

/-- CART.RD at any address is `CartRead`, whatever the mnemonic (R135). -/
theorem exec_decodeCartRead {s : State} {c : Cartridge} (hc : s.cart = some c) (a : Addr) :
    exec (decodeCartRead a) s = finishRead (cartRead c a) s := by
  unfold decodeCartRead cartRead
  cases cartReadRegion a <;> exact withCart_some hc _

/-- CART.WR at any address is `CartWrite`, whatever the mnemonic (R140). -/
theorem exec_decodeCartWrite {s : State} {c : Cartridge} (hc : s.cart = some c) (a : Addr) (v : Byte) :
    exec (decodeCartWrite a v) s = finishCartWrite (cartWrite c a v) s := by
  unfold decodeCartWrite cartWrite
  cases cartWriteRegion a <;> exact withCart_some hc _

/-- `CartRead` is the read column of R52. -/
theorem cartRead_eq_portMapRead (c : Cartridge) (a : Addr) : cartRead c a = portMapRead c a.toNat := by
  unfold cartRead portMapRead
  cases hl : c.life with
  | disposed => rw [guardRead_disposed hl]
  | loaded h =>
    rw [guardRead_loaded hl, cartReadRegion_eq]
    by_cases h₁ : a.toNat ≤ 0x3FFF
    · simp only [if_pos h₁, readRom0, fixedIndex_eq h₁]
    simp only [if_neg h₁]
    by_cases h₂ : a.toNat ≤ 0x7FFF
    · simp only [if_pos h₂, readRomx, windowIndex_eq ⟨Nat.lt_of_not_le h₁, h₂⟩]
    simp only [if_neg h₂]
    by_cases h₃ : 0xA000 ≤ a.toNat ∧ a.toNat ≤ 0xBFFF
    · simp only [if_pos h₃, Config.openBus]
    · simp only [if_neg h₃, outOfCartFault]

/-- `CartWrite` is the write column of R52. -/
theorem cartWrite_eq_portMapWrite (c : Cartridge) (a : Addr) (v : Byte) :
    cartWrite c a v = portMapWrite c a.toNat v := by
  unfold cartWrite portMapWrite
  cases hl : c.life with
  | disposed => rw [guardWrite_disposed hl]
  | loaded h =>
    simp only [guardWrite_loaded hl, cartWriteRegion_eq, ← bankField_eq]
    by_cases h₁ : a.toNat ≤ 0x1FFF
    · simp only [if_pos h₁, romWriteFault]
    simp only [if_neg h₁]
    by_cases h₂ : a.toNat ≤ 0x3FFF
    · simp only [if_pos h₂, writeBank, hl]
    simp only [if_neg h₂]
    by_cases h₃ : a.toNat ≤ 0x7FFF
    · simp only [if_pos h₃, romWriteFault]
    simp only [if_neg h₃]
    by_cases h₄ : 0xA000 ≤ a.toNat ∧ a.toNat ≤ 0xBFFF
    · simp only [if_pos h₄]
    · simp only [if_neg h₄, outOfCartFault]

/-- What a read leaves: the response, and nothing else. -/
theorem finishRead_eq (r : Except FaultRecord Byte) (s : State) :
    finishRead r s = .next (s.setResponse (readResponse r)) := by
  cases r <;> rfl

/-- Settles O11: each selector decodes to the port's operation, which is the map. -/
theorem cartridgePortFollowsAddressMap : Obligations.CartridgePortFollowsAddressMap := by
  intro s c r rest z hc hp ha hz
  obtain ⟨a, rfl⟩ := exists_addr_of_le hz
  have hc' : (s.setPending rest).cart = some c := hc
  rw [step_cons hp]
  constructor
  · intro hs
    rw [serve_of_cart (by simp [hs]) (by simp [hs]) (by simp [hc]) ha (decode_packetAt_cartRead hs a),
      exec_decodeCartRead hc', cartRead_eq_portMapRead, finishRead_eq]
    rfl
  · intro hs
    rw [serve_of_cart (by simp [hs]) (by simp [hs]) (by simp [hc]) ha (decode_packetAt_cartWrite hs a),
      exec_decodeCartWrite hc', cartWrite_eq_portMapWrite, maskData]
    cases portMapWrite c a.toNat _ <;> rfl

/-! ### The bus -/

/-- Setting the bus a state has changes nothing. -/
theorem State.setBus_self {s : State} {b : Bus} (h : s.bus = some b) : s.setBus (some b) = s := by
  cases s
  simp only at h
  rw [h]
  rfl

/-- What a bus write leaves: the cartridge and the stores and `Ok`, or the fault and nothing else. -/
def finishMapWrite (r : Except FaultRecord (Cartridge × Bus)) (s : State) :
    Host.Outcome State Fault Refusal :=
  match r with
  | .ok (c, b) => .next (((s.setCart (some c)).setBus (some b)).setResponse .ok)
  | .error f => .next (s.setResponse (.fault f))

/-- A forwarded write leaves the stores of the bus as they are. -/
theorem finishCartWrite_eq_finishMapWrite {s : State} {b : Bus} (hb : s.bus = some b)
    (r : Except FaultRecord Cartridge) :
    finishCartWrite r s = finishMapWrite (r.map fun c' => (c', b)) s := by
  cases r with
  | error f => rfl
  | ok c' => simp [finishMapWrite, Except.map, State.setBus_self (s := s.setCart (some c')) hb]

/-- A write of a bus-owned store leaves the cartridge as it is. -/
theorem finishBusWrite_eq_finishMapWrite {s : State} {c : Cartridge} (hc : s.cart = some c) (b : Bus) :
    finishBusWrite b s = finishMapWrite (.ok (c, b)) s := by
  rw [finishMapWrite, State.setCart_self hc]
  rfl

section
variable {s : State} {c : Cartridge} {b : Bus} (hc : s.cart = some c) (hb : s.bus = some b)
include hc hb

/-- BUS.RD at any address is the read column of R51. -/
theorem exec_decodeBusRead (a : Addr) :
    exec (decodeBusRead a) s = .next (s.setResponse (readResponse (busMapRead c b a.toNat))) := by
  unfold decodeBusRead busMapRead
  rw [busRegion_eq, ← finishRead_eq]
  by_cases h₁ : a.toNat ≤ 0x7FFF
  · simp only [if_pos h₁, ← cartRead_eq_portMapRead]
    exact (withBus_some hb _).trans (withCart_some hc _)
  simp only [if_neg h₁]
  by_cases h₂ : a.toNat ≤ 0x9FFF
  · simp only [if_pos h₂]
    exact withBus_some hb _
  simp only [if_neg h₂]
  by_cases h₃ : a.toNat ≤ 0xBFFF
  · simp only [if_pos h₃, ← cartRead_eq_portMapRead]
    exact (withBus_some hb _).trans (withCart_some hc _)
  simp only [if_neg h₃]
  by_cases h₄ : a.toNat ≤ 0xDFFF
  · simp only [if_pos h₄, ← wramIndex_eq ⟨Nat.lt_of_not_le h₃, h₄⟩]
    exact withBus_some hb _
  simp only [if_neg h₄]
  by_cases h₅ : a.toNat ≤ 0xFDFF
  · simp only [if_pos h₅, ← echoIndex_eq ⟨Nat.lt_of_not_le h₄, h₅⟩]
    exact withBus_some hb _
  simp only [if_neg h₅]
  by_cases h₆ : a.toNat ≤ 0xFF7F
  · simp only [if_pos h₆]
    exact withBus_some hb _
  simp only [if_neg h₆]
  by_cases h₇ : a.toNat ≤ 0xFFFE
  · simp only [if_pos h₇, ← hramIndex_eq ⟨Nat.lt_of_not_le h₆, h₇⟩]
    exact withBus_some hb _
  · simp only [if_neg h₇]
    exact withBus_some hb _

/-- BUS.WR at any address is the write column of R51. -/
theorem exec_decodeBusWrite (a : Addr) (v : Byte) :
    exec (decodeBusWrite a v) s = finishMapWrite (busMapWrite c b a.toNat v) s := by
  have stub : respond .ok s = finishMapWrite (.ok (c, b)) s := by
    rw [← finishBusWrite_eq_finishMapWrite hc, finishBusWrite, State.setBus_self hb]
  unfold decodeBusWrite busMapWrite
  rw [busRegion_eq]
  by_cases h₁ : a.toNat ≤ 0x7FFF
  · simp only [if_pos h₁, ← cartWrite_eq_portMapWrite, ← finishCartWrite_eq_finishMapWrite hb]
    exact (withBus_some hb _).trans (withCart_some hc _)
  simp only [if_neg h₁]
  by_cases h₂ : a.toNat ≤ 0x9FFF
  · simp only [if_pos h₂, ← stub]
    exact withBus_some hb _
  simp only [if_neg h₂]
  by_cases h₃ : a.toNat ≤ 0xBFFF
  · simp only [if_pos h₃, ← cartWrite_eq_portMapWrite, ← finishCartWrite_eq_finishMapWrite hb]
    exact (withBus_some hb _).trans (withCart_some hc _)
  simp only [if_neg h₃]
  by_cases h₄ : a.toNat ≤ 0xDFFF
  · simp only [if_pos h₄, ← wramIndex_eq ⟨Nat.lt_of_not_le h₃, h₄⟩, ← finishBusWrite_eq_finishMapWrite hc]
    exact withBus_some hb _
  simp only [if_neg h₄]
  by_cases h₅ : a.toNat ≤ 0xFDFF
  · simp only [if_pos h₅, ← echoIndex_eq ⟨Nat.lt_of_not_le h₄, h₅⟩, ← finishBusWrite_eq_finishMapWrite hc]
    exact withBus_some hb _
  simp only [if_neg h₅]
  by_cases h₆ : a.toNat ≤ 0xFF7F
  · simp only [if_pos h₆, ← stub]
    exact withBus_some hb _
  simp only [if_neg h₆]
  by_cases h₇ : a.toNat ≤ 0xFFFE
  · simp only [if_pos h₇, ← hramIndex_eq ⟨Nat.lt_of_not_le h₆, h₇⟩, ← finishBusWrite_eq_finishMapWrite hc]
    exact withBus_some hb _
  · simp only [if_neg h₇, ← finishBusWrite_eq_finishMapWrite hc]
    exact withBus_some hb _

variable {r : Request} {rest : List Request} {a : Addr} (hp : s.pending = r :: rest)
  (ha : r.addr = .int (a.toNat : Nat))
include hp ha

/-- A step on a BUS.RD request answers what the address map gives. -/
theorem step_busRead (hs : r.sel = 0x0) :
    step s = .next ((s.setPending rest).setResponse (readResponse (busMapRead c b a.toNat))) := by
  rw [step_cons hp, serve_of_bus (by simp [hs]) (by simp [hb]) ha (decode_packetAt_busRead hs a),
    exec_decodeBusRead (s := s.setPending rest) hc hb]

/-- A step on a BUS.WR request leaves what the address map gives. -/
theorem step_busWrite (hs : r.sel = 0x1) :
    step s = finishMapWrite (busMapWrite c b a.toNat (maskData r.data)) (s.setPending rest) := by
  rw [step_cons hp, serve_of_bus (by simp [hs]) (by simp [hb]) ha (decode_packetAt_busWrite hs a),
    exec_decodeBusWrite (s := s.setPending rest) hc hb]

end

/-- Settles O9: the request's address is one of 16 bits, and BUS.RD there is the map. -/
theorem busReadFollowsAddressMap : Obligations.BusReadFollowsAddressMap := by
  intro s c b r rest z hc hb hp hs ha hz
  obtain ⟨a, rfl⟩ := exists_addr_of_le hz
  exact step_busRead hc hb hp ha hs

/-- Settles O10: the request's address is one of 16 bits, and BUS.WR there is the map. -/
theorem busWriteFollowsAddressMap : Obligations.BusWriteFollowsAddressMap := by
  intro s c b r rest z hc hb hp hs ha hz
  obtain ⟨a, rfl⟩ := exists_addr_of_le hz
  rw [step_busWrite hc hb hp ha hs, maskData]
  cases busMapWrite c b a.toNat _ <;> rfl

end Sys2Proof.Machine
end

section
/-! PROOFS. A write and the reads after it: `ControlWriteGovernsTheNextRead`, `EchoWindowAliasesWorkRam`,
`LatestWriteIsRead`. -/

namespace Sys2Proof.Machine

/-! ### The two requests of the bus -/

@[simp] theorem busRead_sel (a : Addr) : (busRead a).sel = 0x0 := by
  simp [busRead, readPacket, Packet.ofWord]

@[simp] theorem busRead_addr (a : Addr) : (busRead a).addr = .int (a.toNat : Nat) := by
  simp [busRead, readPacket, Packet.ofWord]

@[simp] theorem busWrite_sel (a : Addr) (v : Byte) : (busWrite a v).sel = 0x1 := by
  simp [busWrite, writePacket, Packet.ofWord]

@[simp] theorem busWrite_addr (a : Addr) (v : Byte) : (busWrite a v).addr = .int (a.toNat : Nat) := by
  simp [busWrite, writePacket, Packet.ofWord]

@[simp] theorem maskData_busWrite_data (a : Addr) (v : Byte) : maskData (busWrite a v).data = v :=
  maskData_toNat v

/-! ### The bytes of the stores on the address map -/

/-- The stores with `v` at one of their bytes. -/
def Bus.put (b : Bus) (v : Byte) : StoreByte → Bus
  | .wram i => { b with wram := b.wram.write i v }
  | .hram i => { b with hram := b.hram.write i v }
  | .ie => { b with ie := v }

/-- Canonical stores hold what is put. -/
theorem Bus.at_put {b : Bus} (h : Memory.wf Config.wramSize b.wram = true ∧
    Memory.wf Config.hramSize b.hram = true) (v : Byte) (x : StoreByte) : (b.put v x).at x = v := by
  obtain ⟨hw, hh⟩ := h
  cases x with
  | wram i => exact (Memory.read_write hw i v i).trans (if_pos rfl)
  | hram i => exact (Memory.read_write hh i v i).trans (if_pos rfl)
  | ie => rfl

/-- The addresses that name a byte of the stores (R51). -/
theorem storeAt_some {a : Nat} {x : StoreByte} (h : storeAt a = some x) :
    (0xC000 ≤ a ∧ a ≤ 0xDFFF ∧ x = .wram (a - 0xC000)) ∨
    (0xE000 ≤ a ∧ a ≤ 0xFDFF ∧ x = .wram (a - 0xE000)) ∨
    (0xFF80 ≤ a ∧ a ≤ 0xFFFE ∧ x = .hram (a - 0xFF80)) ∨ (a = 0xFFFF ∧ x = .ie) := by
  unfold storeAt at h
  grind

theorem busMapRead_of_storeAt {a : Nat} {x : StoreByte} (h : storeAt a = some x) (c : Cartridge) (b : Bus) :
    busMapRead c b a = .ok (b.at x) := by
  unfold busMapRead
  obtain ⟨h₁, h₂, rfl⟩ | ⟨h₁, h₂, rfl⟩ | ⟨h₁, h₂, rfl⟩ | ⟨rfl, rfl⟩ := storeAt_some h
  · iterate 3 rw [if_neg (by omega)]
    exact if_pos h₂
  · iterate 4 rw [if_neg (by omega)]
    exact if_pos h₂
  · iterate 6 rw [if_neg (by omega)]
    exact if_pos h₂
  · rfl

theorem busMapWrite_of_storeAt {a : Nat} {x : StoreByte} (h : storeAt a = some x) (c : Cartridge) (b : Bus)
    (v : Byte) : busMapWrite c b a v = .ok (c, b.put v x) := by
  unfold busMapWrite
  obtain ⟨h₁, h₂, rfl⟩ | ⟨h₁, h₂, rfl⟩ | ⟨h₁, h₂, rfl⟩ | ⟨rfl, rfl⟩ := storeAt_some h
  · iterate 3 rw [if_neg (by omega)]
    exact if_pos h₂
  · iterate 4 rw [if_neg (by omega)]
    exact if_pos h₂
  · iterate 6 rw [if_neg (by omega)]
    exact if_pos h₂
  · rfl

/-! ### The steps that store and read a byte -/

theorem BlockInv.exists_cart_bus {s : State} (h : BlockInv s) (hb : s.bus ≠ none) :
    ∃ c b, s.cart = some c ∧ s.bus = some b := by
  obtain ⟨c, hc⟩ := Option.ne_none_iff_exists'.mp (h.busHasCart hb)
  obtain ⟨b, hb⟩ := Option.ne_none_iff_exists'.mp hb
  exact ⟨c, b, hc, hb⟩

/-- A request that stores to a byte is a BUS.WR at an address that names it. -/
theorem storesTo_some {r : Request} {x : StoreByte} (h : storesTo r = some x) :
    ∃ a : Addr, r.sel = 0x1 ∧ r.addr = .int (a.toNat : Nat) ∧ storeAt a.toNat = some x := by
  unfold storesTo at h
  split at h
  case h_2 => cases h
  case h_1 z hz =>
    split at h
    case isFalse => cases h
    case isTrue hs =>
      obtain ⟨a, ha⟩ := exists_addr_of_le (z := z.toNat) (by have := storeAt_some h; omega)
      exact ⟨a, hs.1, by rw [hz, ha, Int.toNat_of_nonneg hs.2], by rwa [ha]⟩

/-- The step of a request that stores to a byte puts its masked value there. -/
theorem step_of_storesTo {s : State} {r : Request} {rest : List Request} {x : StoreByte} (hinv : BlockInv s)
    (hb : s.bus ≠ none) (hp : s.pending = r :: rest) (hx : storesTo r = some x) :
    ∃ t, step s = .next t ∧ t.pending = rest ∧ storeByte t x = some (maskData r.data) := by
  obtain ⟨c, b, hc, hb⟩ := hinv.exists_cart_bus hb
  obtain ⟨a, hs, ha, hx⟩ := storesTo_some hx
  have hst := step_busWrite hc hb hp ha hs
  rw [busMapWrite_of_storeAt hx] at hst
  exact ⟨_, hst, rfl, congrArg some (Bus.at_put (hinv.busCanonical b hb) (maskData r.data) x)⟩

/-- The step of a BUS.RD at an address that names a byte answers what is stored there. -/
theorem step_of_storeAt {s : State} {rest : List Request} {a : Addr} {x : StoreByte} {v : Byte}
    (hinv : BlockInv s) (hv : storeByte s x = some v) (hp : s.pending = busRead a :: rest)
    (hx : storeAt a.toNat = some x) :
    step s = .next ((s.setPending rest).setResponse (.byte v)) := by
  obtain ⟨b, hb, rfl⟩ := Option.map_eq_some_iff.mp hv
  obtain ⟨c, -, hc, -⟩ := hinv.exists_cart_bus (by simp [hb])
  rw [step_busRead hc hb hp (busRead_addr a) (busRead_sel a), busMapRead_of_storeAt hx]
  rfl

theorem storesTo_busWrite (a : Addr) (v : Byte) : storesTo (busWrite a v) = storeAt a.toNat := by
  simp [storesTo]

/-! ### The statements -/

/-- The two windows of work RAM name one byte (R58). -/
theorem storeAt_windows {i x : Nat} (hi : i < 0x1E00) (hx : x = 0xC000 + i ∨ x = 0xE000 + i) :
    storeAt x = some (.wram i) := by
  unfold storeAt
  obtain rfl | rfl := hx
  · rw [if_pos (by omega), Nat.add_sub_cancel_left]
  · rw [if_neg (by omega), if_pos (by omega), Nat.add_sub_cancel_left]

/-- Settles O59: both addresses name the byte `i` of work RAM; the write puts the value there. -/
theorem echoWindowAliasesWorkRam : Obligations.EchoWindowAliasesWorkRam := by
  intro s i v x y hinv hb hi hxy hp
  have hx : storeAt x.toNat = some (.wram i) := storeAt_windows hi (by omega)
  have hy : storeAt y.toNat = some (.wram i) := storeAt_windows hi (by omega)
  obtain ⟨t, hst, hpt, hv⟩ := step_of_storesTo hinv hb hp ((storesTo_busWrite x v).trans hx)
  rw [maskData_busWrite_data] at hv
  have hread := step_of_storeAt (step_keeps_blockInv hinv hst) hv hpt hy
  exact ⟨_, (run_succ hst).trans (run_succ hread), rfl⟩

/-- A step whose request neither stores to a byte nor ends its bus keeps the byte. -/
theorem step_keeps_storeByte {s t : State} {x : StoreByte} (hinv : BlockInv s)
    (hq : ∀ r, s.pending.head? = some r → storesTo r ≠ some x ∧ r.sel ≠ 0x5 ∧ r.sel ≠ 0x6)
    (hst : step s = .next t) : storeByte t x = storeByte s x := by
  refine Decidable.byContradiction fun hne => ?_
  obtain ⟨r, rest, hp, hr⟩ := storedBytesChangeOnlyByTheirWrites s t x hinv hst hne
  obtain ⟨hx, h5, h6⟩ := hq r (by simp [hp])
  obtain hr | hr | hr := hr
  · exact hx hr
  · exact h5 hr
  · exact h6 hr

/-- Settles O60: the first step puts the value into the byte; the invariant and the byte are what every
later step of the run keeps; and the read answers the byte. -/
theorem latestWriteIsRead : Obligations.LatestWriteIsRead := by
  intro k s t r rest x a hinv hb hp hx hq hr ha
  obtain ⟨u, hst, hpu, hv⟩ := step_of_storesTo hinv hb hp hx
  obtain ⟨u', hst', hr⟩ := run_succ_next hr
  obtain rfl : u = u' := Host.Outcome.next.inj (hst.symm.trans hst')
  obtain ⟨hinv', hv'⟩ : BlockInv t ∧ storeByte t x = some (maskData r.data) :=
    run_keeps (P := fun w => BlockInv w ∧ storeByte w x = some (maskData r.data))
      (fun _ _ ⟨hi, hw⟩ hq hst =>
        ⟨step_keeps_blockInv hi hst, (step_keeps_storeByte hi hq hst).trans hw⟩)
      ⟨step_keeps_blockInv hinv hst, hv⟩ (by rwa [hpu]) hr
  exact step_of_storeAt (s := t.setPending [busRead a]) (hinv'.setPending _) hv' rfl ha

/-- The control window on the write map of a loaded cartridge (R142). -/
theorem busMapWrite_control {c : Cartridge} {h : Header} (hl : c.life = .loaded h) (b : Bus) {a : Nat}
    (ha : 0x2000 ≤ a ∧ a ≤ 0x3FFF) (v : Byte) :
    busMapWrite c b a v = .ok ({ c with bank := BitVec.ofNat 5 (v.toNat % 0x20) }, b) := by
  rw [busMapWrite, if_pos (by omega), portMapWrite]
  simp only [hl]
  rw [if_neg (by omega), if_pos ha.2]
  rfl

/-- The switchable window on the read map of a loaded cartridge (R137). -/
theorem busMapRead_window {c : Cartridge} {h : Header} (hl : c.life = .loaded h) (b : Bus) {a : Nat}
    (ha : 0x4000 ≤ a ∧ a ≤ 0x7FFF) :
    busMapRead c b a = .ok (c.rom.byte (effBank c.bank h.romBanks * 0x4000 + (a - 0x4000))) := by
  rw [busMapRead, if_pos ha.2, portMapRead]
  simp only [hl]
  rw [if_neg (by omega), if_pos ha.2]

/-- Settles O46: the write's step leaves the cartridge with the new bank, and the read's step answers
from it. -/
theorem controlWriteGovernsTheNextRead : Obligations.ControlWriteGovernsTheNextRead := by
  intro s c h w a v hc hl hb hw ha hp
  obtain ⟨b, hb⟩ := Option.ne_none_iff_exists'.mp hb
  have hwrite := step_busWrite hc hb hp (busWrite_addr w v) (busWrite_sel w v)
  rw [maskData_busWrite_data, busMapWrite_control hl b hw] at hwrite
  obtain ⟨t, hst, hc', hb', hp'⟩ : ∃ t, step s = .next t ∧
      t.cart = some { c with bank := BitVec.ofNat 5 (v.toNat % 0x20) } ∧ t.bus = some b ∧
      t.pending = [busRead a] := ⟨_, hwrite, rfl, rfl, rfl⟩
  have hread := step_busRead hc' hb' hp' (busRead_addr a) (busRead_sel a)
  rw [busMapRead_window (c := { c with bank := BitVec.ofNat 5 (v.toNat % 0x20) }) hl b ha] at hread
  exact ⟨_, (run_succ hst).trans (run_succ hread), rfl⟩

end Sys2Proof.Machine
end

section
/-! PROOFS. What repeating a transaction does: `ReadsHaveNoSideEffect`, `WritesAreIdempotent`. -/

namespace Sys2Proof

/-- Storing the same byte again leaves the canonical listing as it is. -/
theorem Memory.write_write {n : Nat} {m : Memory} (h : Memory.wf n m = true) {a : Nat} (ha : a < n) (v : Byte) :
    (m.write a v).write a v = m.write a v := by
  have hw := Memory.wf_write h ha v
  refine Memory.ext_of_wf (Memory.wf_write hw ha v) hw fun x => ?_
  rw [Memory.read_write hw, Memory.read_write h]
  split <;> rfl

namespace Machine

/-- An instruction that reads leaves nothing but its answer. -/
theorem ExecEffect.of_reads {s t : State} {i : Instr} (he : ExecEffect s i t) (hi : Reads i = true) :
    ∃ p, t = s.setResponse p := by
  cases he
  case answer p => exact ⟨p, rfl⟩
  case bank hw => obtain rfl | ⟨rfl | rfl, -⟩ := hw <;> cases hi
  all_goals cases hi

/-- Settles O52: a read leaves the state but for the response, which no instruction reads. -/
theorem readsHaveNoSideEffect : Obligations.ReadsHaveNoSideEffect := by
  intro i s t hi h
  obtain ⟨p, rfl⟩ := (exec_next h).of_reads hi
  exact ⟨rfl, rfl, by rwa [exec_setResponse]⟩

@[simp] theorem writeBank_writeBank (c : Cartridge) (v : Byte) :
    writeBank (writeBank c v) v = writeBank c v := rfl

/-- `CartWrite` in the control window of a loaded cartridge (R142). -/
theorem cartWrite_of_bank {c : Cartridge} {hd : Header} {a : Addr} (hl : c.life = .loaded hd)
    (hr : cartWriteRegion a = .bank) (v : Byte) : cartWrite c a v = .ok (writeBank c v) := by
  rw [cartWrite, guardWrite_loaded hl, hr]

/-- A control write again sets the register it has set. -/
theorem exec_again_of_bank {s t : State} {i : Instr} {c : Cartridge} {hd : Header} {a : Addr} {v : Byte}
    (h : exec i s = .next t) (hl : c.life = .loaded hd)
    (hi : i = .cartWrBank a v ∨ ((i = .busWrCart a v ∨ i = .busWrEram a v) ∧ cartWriteRegion a = .bank)) :
    exec i (s.setCart (some (writeBank c v))) =
      .next ((s.setCart (some (writeBank c v))).setResponse .ok) := by
  have hl' : (writeBank c v).life = .loaded hd := hl
  obtain rfl | ⟨rfl | rfl, hr⟩ := hi
  · simp [exec, execCartWrBank, guardWrite_loaded hl']
  · obtain ⟨b, hb, -⟩ := withBus_next h
    simp [exec, execBusWrCart, hb, cartWrite_of_bank hl' hr]
  · obtain ⟨b, hb, -⟩ := withBus_next h
    simp [exec, execBusWrEram, hb, cartWrite_of_bank hl' hr]

/-- Settles O53: a store that has the byte, and a register that has the bank, take it again unchanged;
every other write assigns nothing. -/
theorem writesAreIdempotent : Obligations.WritesAreIdempotent := by
  intro i s t hinv hwf hi h
  cases exec_next h <;> rw [exec_setResponse]
  case answer p => exact h
  case bank c hd a v hc hl hw => exact exec_again_of_bank h hl hw
  case wram b a v hb =>
    obtain ⟨hw, -⟩ := hinv.busCanonical b hb
    simp [exec, execBusWrWram, Memory.write_write hw (wramIndex_lt a) v]
  case echo b a v hb =>
    obtain ⟨hw, -⟩ := hinv.busCanonical b hb
    simp [exec, execBusWrEcho, Memory.write_write hw (echoIndex_lt a) v]
  case hram b a v hb =>
    obtain ⟨-, hh⟩ := hinv.busCanonical b hb
    simp [exec, execBusWrHram, Memory.write_write hh (hramIndex_lt (inRange_iff.mp hwf)) v]
  case ie b v hb => rfl
  all_goals cases hi

end Machine

end Sys2Proof
end

section
/-! PROOFS. The encoder and the decoder: `EncodedTransactionDecodesToItself`,
`DecodedTransactionIsWellFormedAndKeepsItsWord`, `SampleWordsDecode`. -/

namespace Sys2Proof

/-! ### The regions, in the address ranges of R96 -/

/-- The addresses of a bus region. -/
def BusRegion.contains (a : Addr) : BusRegion → Bool
  | .cart => inRange 0x0000 0x7FFF a
  | .stub => inRange 0x8000 0x9FFF a || inRange 0xFE00 0xFF7F a
  | .eram => inRange 0xA000 0xBFFF a
  | .wram => inRange 0xC000 0xDFFF a
  | .echo => inRange 0xE000 0xFDFF a
  | .hram => inRange 0xFF80 0xFFFE a
  | .ie => inRange 0xFFFF 0xFFFF a

/-- The addresses of a region of the cartridge-port reads. -/
def CartReadRegion.contains (a : Addr) : CartReadRegion → Bool
  | .rom0 => inRange 0x0000 0x3FFF a
  | .romx => inRange 0x4000 0x7FFF a
  | .oor => inRange 0x8000 0x9FFF a || inRange 0xC000 0xFFFF a
  | .eram => inRange 0xA000 0xBFFF a

/-- The addresses of a region of the cartridge-port writes. -/
def CartWriteRegion.contains (a : Addr) : CartWriteRegion → Bool
  | .romlo => inRange 0x0000 0x1FFF a
  | .bank => inRange 0x2000 0x3FFF a
  | .romx => inRange 0x4000 0x7FFF a
  | .oor => inRange 0x8000 0x9FFF a || inRange 0xC000 0xFFFF a
  | .eram => inRange 0xA000 0xBFFF a

theorem busRegion_of_contains {a : Addr} {g : BusRegion} (h : g.contains a = true) :
    busRegion a = g := by
  rw [busRegion_eq]
  cases g <;> simp only [BusRegion.contains, Bool.or_eq_true, inRange_iff] at h <;> grind

theorem cartReadRegion_of_contains {a : Addr} {g : CartReadRegion} (h : g.contains a = true) :
    cartReadRegion a = g := by
  rw [cartReadRegion_eq]
  cases g <;> simp only [CartReadRegion.contains, Bool.or_eq_true, inRange_iff] at h <;> grind

theorem cartWriteRegion_of_contains {a : Addr} {g : CartWriteRegion} (h : g.contains a = true) :
    cartWriteRegion a = g := by
  rw [cartWriteRegion_eq]
  cases g <;> simp only [CartWriteRegion.contains, Bool.or_eq_true, inRange_iff] at h <;> grind

/-! ### Decoding the packet of a region -/

/-- The read of a bus region (R82). -/
def BusRegion.read (a : Addr) : BusRegion → Instr
  | .cart => .busRdCart a
  | .stub => .busRdStub a
  | .eram => .busRdEram a
  | .wram => .busRdWram a
  | .echo => .busRdEcho a
  | .hram => .busRdHram a
  | .ie => .busRdIe

/-- The write of a bus region (R82). -/
def BusRegion.write (a : Addr) (v : Byte) : BusRegion → Instr
  | .cart => .busWrCart a v
  | .stub => .busWrStub a v
  | .eram => .busWrEram a v
  | .wram => .busWrWram a v
  | .echo => .busWrEcho a v
  | .hram => .busWrHram a v
  | .ie => .busWrIe v

/-- The read of a cartridge-port region (R83). -/
def CartReadRegion.read (a : Addr) : CartReadRegion → Instr
  | .rom0 => .cartRdRom0 a
  | .romx => .cartRdRomx a
  | .oor => .cartRdOor a
  | .eram => .cartRdEram a

/-- The write of a cartridge-port region (R83). -/
def CartWriteRegion.write (a : Addr) (v : Byte) : CartWriteRegion → Instr
  | .romlo => .cartWrRomlo a v
  | .bank => .cartWrBank a v
  | .romx => .cartWrRomx a v
  | .oor => .cartWrOor a v
  | .eram => .cartWrEram a v

theorem decodeBusRead_eq (a : Addr) : decodeBusRead a = (busRegion a).read a := by
  unfold decodeBusRead
  cases busRegion a <;> rfl

theorem decodeBusWrite_eq (a : Addr) (v : Byte) : decodeBusWrite a v = (busRegion a).write a v := by
  unfold decodeBusWrite
  cases busRegion a <;> rfl

theorem decodeCartRead_eq (a : Addr) : decodeCartRead a = (cartReadRegion a).read a := by
  unfold decodeCartRead
  cases cartReadRegion a <;> rfl

theorem decodeCartWrite_eq (a : Addr) (v : Byte) :
    decodeCartWrite a v = (cartWriteRegion a).write a v := by
  unfold decodeCartWrite
  cases cartWriteRegion a <;> rfl

theorem decode_readPacket_bus {a : Addr} {g : BusRegion} (h : g.contains a = true) :
    decode (readPacket 0x0 a) = .ok (g.read a) := by
  simp [decode, readPacket, Packet.ofWord, decodeBusRead_eq, busRegion_of_contains h]

theorem decode_writePacket_bus {a : Addr} {g : BusRegion} (h : g.contains a = true) (v : Byte) :
    decode (writePacket 0x1 a v) = .ok (g.write a v) := by
  simp [decode, writePacket, Packet.ofWord, decodeBusWrite_eq, busRegion_of_contains h]

theorem decode_readPacket_cart {a : Addr} {g : CartReadRegion} (h : g.contains a = true) :
    decode (readPacket 0x2 a) = .ok (g.read a) := by
  simp [decode, readPacket, Packet.ofWord, decodeCartRead_eq, cartReadRegion_of_contains h]

theorem decode_writePacket_cart {a : Addr} {g : CartWriteRegion} (h : g.contains a = true) (v : Byte) :
    decode (writePacket 0x3 a v) = .ok (g.write a v) := by
  simp [decode, writePacket, Packet.ofWord, decodeCartWrite_eq, cartWriteRegion_of_contains h]

/-- Settles O2: a well-formed address lies in its mnemonic's region, which the decoder finds again; the
operands stand in the packet. -/
theorem encodedTransactionDecodesToItself : Obligations.EncodedTransactionDecodesToItself := by
  intro i hwf
  cases i with
  | busRdCart a => exact decode_readPacket_bus (g := .cart) hwf
  | busRdStub a => exact decode_readPacket_bus (g := .stub) hwf
  | busRdEram a => exact decode_readPacket_bus (g := .eram) hwf
  | busRdWram a => exact decode_readPacket_bus (g := .wram) hwf
  | busRdEcho a => exact decode_readPacket_bus (g := .echo) hwf
  | busRdHram a => exact decode_readPacket_bus (g := .hram) hwf
  | busRdIe => exact decode_readPacket_bus (g := .ie) rfl
  | busWrCart a v => exact decode_writePacket_bus (g := .cart) hwf v
  | busWrStub a v => exact decode_writePacket_bus (g := .stub) hwf v
  | busWrEram a v => exact decode_writePacket_bus (g := .eram) hwf v
  | busWrWram a v => exact decode_writePacket_bus (g := .wram) hwf v
  | busWrEcho a v => exact decode_writePacket_bus (g := .echo) hwf v
  | busWrHram a v => exact decode_writePacket_bus (g := .hram) hwf v
  | busWrIe v => exact decode_writePacket_bus (g := .ie) rfl v
  | cartRdRom0 a => exact decode_readPacket_cart (g := .rom0) hwf
  | cartRdRomx a => exact decode_readPacket_cart (g := .romx) hwf
  | cartRdOor a => exact decode_readPacket_cart (g := .oor) hwf
  | cartRdEram a => exact decode_readPacket_cart (g := .eram) hwf
  | cartWrRomlo a v => exact decode_writePacket_cart (g := .romlo) hwf v
  | cartWrBank a v => exact decode_writePacket_cart (g := .bank) hwf v
  | cartWrRomx a v => exact decode_writePacket_cart (g := .romx) hwf v
  | cartWrOor a v => exact decode_writePacket_cart (g := .oor) hwf v
  | cartWrEram a v => exact decode_writePacket_cart (g := .eram) hwf v
  | hostHdr rom => simp [decode, encode, hostPacket, Packet.ofWord]
  | hostLoad rom => simp [decode, encode, hostPacket, Packet.ofWord]
  | hostAttach ram => simp [decode, encode, hostPacket, Packet.ofWord]
  | hostDispose => simp [decode, encode, hostPacket, Packet.ofWord]
  | hostRomsize => simp [decode, encode, hostPacket, Packet.ofWord]

/-! ### What a decoded packet keeps -/

theorem writes_decodeBusRead (a : Addr) : Machine.Writes (decodeBusRead a) = false := by
  rw [decodeBusRead_eq]
  cases busRegion a <;> rfl

theorem writes_decodeCartRead (a : Addr) : Machine.Writes (decodeCartRead a) = false := by
  rw [decodeCartRead_eq]
  cases cartReadRegion a <;> rfl

/-- The encoder gives back the data byte of an accepted write (R80). -/
theorem encode_data_of_decode {p : Packet} {i : Instr} (h : decode p = .ok i)
    (hi : Machine.Writes i = true) : (encode i).data = p.data := by
  unfold decode at h
  split at h <;> cases h
  · simp [writes_decodeBusRead] at hi
  · rw [encode_decodeBusWrite]; rfl
  · simp [writes_decodeCartRead] at hi
  · rw [encode_decodeCartWrite]; rfl
  all_goals cases hi

/-- Settles O3: selector and address together are the word (R80). -/
theorem decodedTransactionIsWellFormedAndKeepsItsWord :
    Obligations.DecodedTransactionIsWellFormedAndKeepsItsWord := by
  intro p i h
  refine ⟨decode_wf h, ?_, encode_data_of_decode h⟩
  rw [encode_word_of_decode h]
  split
  · rw [← wordSel_toNat, makeWord_fields]
  · rfl

/-- Settles O1, by running the decoder on the nine words. -/
theorem sampleWordsDecode : Obligations.SampleWordsDecode :=
  ⟨rfl, rfl, rfl, rfl, rfl, rfl, rfl, rfl, rfl⟩

end Sys2Proof
end

section
/-! PROOFS. The opcode table: `OpcodeTableAgreesWithTheDecoder`. Each row selects the words of one block;
the blocks, in the table's order, tile the words of the nine selectors; and no region of an address map
begins inside a block, so that what the decoder makes of a block's first word it makes of all. -/

namespace Sys2Proof

/-! ### The block of words a row selects -/

/-- How many words a row selects: its mask's complement and one more. -/
def OpcodeRow.size (r : OpcodeRow) : Nat := (~~~r.mask).toNat + 1

/-- The row fixes the high bits of a word and leaves the low `k` free: a power-of-two block (R96). -/
def OpcodeRow.IsBlock (r : OpcodeRow) : Prop :=
  ∃ k ≤ 20, r.mask = BitVec.allOnes 20 <<< k ∧ r.size = 2 ^ k ∧ 2 ^ k ∣ r.value.toNat

theorem and_allOnes_shiftLeft_toNat (w : TxnWord) (k : Nat) :
    (w &&& BitVec.allOnes 20 <<< k).toNat = w.toNat / 2 ^ k * 2 ^ k := by
  have hle : w.toNat / 2 ^ k * 2 ^ k ≤ w.toNat := Nat.div_mul_le_self _ _
  rw [← BitVec.shiftLeft_ushiftRight, BitVec.toNat_shiftLeft, BitVec.toNat_ushiftRight,
    Nat.shiftRight_eq_div_pow, Nat.shiftLeft_eq]
  exact Nat.mod_eq_of_lt (Nat.lt_of_le_of_lt hle w.isLt)

/-- A row selects the words from its value up, as many as its size. -/
theorem OpcodeRow.selects_iff {r : OpcodeRow} (hr : r.IsBlock) (w : TxnWord) :
    r.selects w = true ↔ r.value.toNat ≤ w.toNat ∧ w.toNat < r.value.toNat + r.size := by
  obtain ⟨k, -, hmask, hsize, q, hq⟩ := hr
  have hpos : 0 < 2 ^ k := Nat.two_pow_pos k
  calc r.selects w = true
    _ ↔ w.toNat / 2 ^ k * 2 ^ k = q * 2 ^ k := by
      rw [OpcodeRow.selects, beq_iff_eq, hmask, ← BitVec.toNat_inj, and_allOnes_shiftLeft_toNat, hq,
        Nat.mul_comm q]
    _ ↔ w.toNat / 2 ^ k = q := Nat.mul_left_inj (Nat.ne_of_gt hpos)
    _ ↔ _ := by rw [Nat.div_eq_iff hpos, hsize, hq]; grind

theorem isBlock_of_mem_opcodeTable : ∀ r ∈ opcodeTable, r.IsBlock := by
  unfold OpcodeRow.IsBlock
  decide

/-! ### The blocks tile the words -/

/-- The rows' blocks follow one another without a gap, from `lo` up to `hi`. -/
def Tiles : Nat → List OpcodeRow → Nat → Prop
  | lo, [], hi => lo = hi
  | lo, r :: t, hi => r.value.toNat = lo ∧ Tiles (lo + r.size) t hi

/-- Row for row, the next value is where the block ends: 53 equations between numbers. -/
theorem opcodeTable_tiles : Tiles 0 opcodeTable 0x90000 := by
  repeat' constructor

theorem Tiles.le {rows : List OpcodeRow} {lo hi : Nat} (h : Tiles lo rows hi) : lo ≤ hi := by
  induction rows generalizing lo with
  | nil => exact Nat.le_of_eq h
  | cons r t ih =>
    have := ih h.2
    omega

/-- Rows that tile a range select its words and no others. -/
theorem Tiles.exists_selects_iff {rows : List OpcodeRow} {lo hi : Nat} (hb : ∀ r ∈ rows, r.IsBlock)
    (h : Tiles lo rows hi) (w : TxnWord) :
    (∃ r ∈ rows, r.selects w = true) ↔ lo ≤ w.toNat ∧ w.toNat < hi := by
  induction rows generalizing lo with
  | nil =>
    obtain rfl : lo = hi := h
    simp
  | cons r t ih =>
    obtain ⟨hr, ht⟩ := List.forall_mem_cons.mp hb
    obtain ⟨rfl, h⟩ := h
    have hle := h.le
    simp only [List.mem_cons, exists_eq_or_imp]
    rw [r.selects_iff hr, ih ht h]
    omega

/-- Rows that tile a range are pairwise disjoint. -/
theorem Tiles.pairwise_disjoint {rows : List OpcodeRow} {lo hi : Nat} (hb : ∀ r ∈ rows, r.IsBlock)
    (h : Tiles lo rows hi) :
    rows.Pairwise fun r r' => ∀ w, ¬ (r.selects w = true ∧ r'.selects w = true) := by
  induction rows generalizing lo with
  | nil => exact .nil
  | cons r t ih =>
    obtain ⟨hr, ht⟩ := List.forall_mem_cons.mp hb
    obtain ⟨hlo, h⟩ := h
    refine .cons (fun r' hr' w ⟨hw, hw'⟩ => ?_) (ih ht h)
    have hlt := ((r.selects_iff hr w).mp hw).2
    have hge := ((h.exists_selects_iff ht w).mp ⟨r', hr', hw'⟩).1
    omega

/-! ### The decoder between the region boundaries -/

/-- Where a region of the selector's address map begins, 0x0000 apart (R82, R83). -/
def regionStarts : Nat → List Nat
  | 0x0 | 0x1 => [0x8000, 0xA000, 0xC000, 0xE000, 0xFE00, 0xFF80, 0xFFFF]
  | 0x2 => [0x4000, 0x8000, 0xA000, 0xC000]
  | 0x3 => [0x2000, 0x4000, 0x8000, 0xA000, 0xC000]
  | _ => []

/-- No region begins between the two addresses. -/
def SameRegion (sel : Nat) (a b : Addr) : Prop :=
  ∀ c ∈ regionStarts sel, c ≤ a.toNat ↔ c ≤ b.toNat

theorem SameRegion.bus {a b : Addr} (h : SameRegion 0x0 a b) : busRegion a = busRegion b := by
  simp only [SameRegion, regionStarts, List.forall_mem_cons] at h
  rw [busRegion_eq, busRegion_eq]
  grind

theorem SameRegion.cartRead {a b : Addr} (h : SameRegion 0x2 a b) :
    cartReadRegion a = cartReadRegion b := by
  simp only [SameRegion, regionStarts, List.forall_mem_cons] at h
  rw [cartReadRegion_eq, cartReadRegion_eq]
  grind

theorem SameRegion.cartWrite {a b : Addr} (h : SameRegion 0x3 a b) :
    cartWriteRegion a = cartWriteRegion b := by
  simp only [SameRegion, regionStarts, List.forall_mem_cons] at h
  rw [cartWriteRegion_eq, cartWriteRegion_eq]
  grind

theorem mnemonic_decodeBusRead_congr {a b : Addr} (h : busRegion a = busRegion b) :
    (decodeBusRead a).mnemonic = (decodeBusRead b).mnemonic := by
  rw [decodeBusRead_eq, decodeBusRead_eq, h]
  cases busRegion b <;> rfl

theorem mnemonic_decodeBusWrite_congr {a b : Addr} (h : busRegion a = busRegion b) (v w : Byte) :
    (decodeBusWrite a v).mnemonic = (decodeBusWrite b w).mnemonic := by
  rw [decodeBusWrite_eq, decodeBusWrite_eq, h]
  cases busRegion b <;> rfl

theorem mnemonic_decodeCartRead_congr {a b : Addr} (h : cartReadRegion a = cartReadRegion b) :
    (decodeCartRead a).mnemonic = (decodeCartRead b).mnemonic := by
  rw [decodeCartRead_eq, decodeCartRead_eq, h]
  cases cartReadRegion b <;> rfl

theorem mnemonic_decodeCartWrite_congr {a b : Addr} (h : cartWriteRegion a = cartWriteRegion b) (v w : Byte) :
    (decodeCartWrite a v).mnemonic = (decodeCartWrite b w).mnemonic := by
  rw [decodeCartWrite_eq, decodeCartWrite_eq, h]
  cases cartWriteRegion b <;> rfl

/-- Two words of one selector and one region decode to one mnemonic. -/
theorem mnemonic_eq_of_sameRegion {p q : Packet} (hs : slice 19 16 p.word = slice 19 16 q.word)
    (h : SameRegion (slice 19 16 q.word) (wordAddr p.word) (wordAddr q.word)) :
    (decode p).map Instr.mnemonic = (decode q).map Instr.mnemonic := by
  have hsel : wordSel p.word = wordSel q.word := by rw [wordSel, wordSel, hs]
  unfold decode
  rw [hs, hsel]
  split
  case h_1 hq => rw [hq] at h; exact congrArg Except.ok (mnemonic_decodeBusRead_congr h.bus)
  case h_2 hq => rw [hq] at h; exact congrArg Except.ok (mnemonic_decodeBusWrite_congr h.bus _ _)
  case h_3 hq => rw [hq] at h; exact congrArg Except.ok (mnemonic_decodeCartRead_congr h.cartRead)
  case h_4 hq => rw [hq] at h; exact congrArg Except.ok (mnemonic_decodeCartWrite_congr h.cartWrite _ _)
  all_goals rfl

/-- A block has one selector, and no region begins inside it. -/
theorem regionStarts_of_mem_opcodeTable : ∀ r ∈ opcodeTable,
    (wordAddr r.value).toNat + r.size ≤ 0x10000 ∧
    ∀ c ∈ regionStarts (slice 19 16 r.value),
      c ≤ (wordAddr r.value).toNat ∨ (wordAddr r.value).toNat + r.size ≤ c := by
  decide

/-- The first word of a block decodes to its row's mnemonic: the decoder run on the table, row for row. -/
theorem mnemonic_of_mem_opcodeTable : ∀ r ∈ opcodeTable,
    (decode (Packet.ofWord r.value)).map Instr.mnemonic = .ok r.mnemonic :=
  List.map_inj_left.mp rfl

/-- A word's number is its selector above its address (R80). -/
theorem toNat_eq_fields (w : TxnWord) : w.toNat = slice 19 16 w * 0x10000 + (wordAddr w).toNat := by
  have hsel : slice 19 16 w < 16 := slice_lt 19 16 w
  rw [← makeWord_toNat _ hsel, ← wordSel_toNat, makeWord_fields]

/-- A word that selects a row decodes to the row's mnemonic. -/
theorem decode_mnemonic_of_selects {r : OpcodeRow} (hr : r ∈ opcodeTable) {p : Packet}
    (h : r.selects p.word = true) : (decode p).map Instr.mnemonic = .ok r.mnemonic := by
  obtain ⟨hge, hlt⟩ := (r.selects_iff (isBlock_of_mem_opcodeTable r hr) p.word).mp h
  obtain ⟨hend, hstarts⟩ := regionStarts_of_mem_opcodeTable r hr
  have hp := toNat_eq_fields p.word
  have hv := toNat_eq_fields r.value
  have ha := (wordAddr p.word).isLt
  have hs : slice 19 16 p.word = slice 19 16 r.value := by omega
  rw [← mnemonic_of_mem_opcodeTable r hr]
  refine mnemonic_eq_of_sameRegion hs fun c hc => ?_
  have hstart := hstarts c hc
  simp only [Packet.ofWord]
  omega

/-- The decoder accepts the selectors up to 0x8 only (R81). -/
theorem sel_le_of_decode {p : Packet} {i : Instr} (h : decode p = .ok i) : slice 19 16 p.word ≤ 0x8 := by
  unfold decode at h
  split at h <;> cases h <;> omega

theorem exists_selects_iff_sel_le (w : TxnWord) :
    (∃ r ∈ opcodeTable, r.selects w = true) ↔ slice 19 16 w ≤ 0x8 := by
  have ha := (wordAddr w).isLt
  rw [opcodeTable_tiles.exists_selects_iff isBlock_of_mem_opcodeTable, toNat_eq_fields]
  omega

/-- Settles O4: the rows tile the words of the selectors up to 0x8, and each row's words decode alike. -/
theorem opcodeTableAgreesWithTheDecoder : Obligations.OpcodeTableAgreesWithTheDecoder := by
  refine ⟨opcodeTable_tiles.pairwise_disjoint isBlock_of_mem_opcodeTable, exists_selects_iff_sel_le,
    fun p => ⟨fun r hr h => ?_, fun i h => ?_⟩⟩
  · have hm := decode_mnemonic_of_selects hr h
    cases hd : decode p with
    | error e => rw [hd] at hm; cases hm
    | ok i => rw [hd] at hm; exact ⟨i, rfl, Except.ok.inj hm⟩
  · obtain ⟨r, hr, hw⟩ := (exists_selects_iff_sel_le p.word).mpr (sel_le_of_decode h)
    have hm := decode_mnemonic_of_selects hr hw
    rw [h] at hm
    exact ⟨r, hr, hw, (Except.ok.inj hm).symm⟩

end Sys2Proof
end

section
/-! PROOFS. A window index and a header are made of the bits and bytes listed: `WindowIndexFitsNineteenBits`,
`HeaderDependsOnHeaderBytesOnly`. -/

namespace Sys2Proof.Machine

/-! ### The switchable-window index -/

/-- The effective bank is the five-bit register, coerced or reduced. -/
theorem effBank_le_31 (bank : BitVec 5) (n : BankCount) : effBank bank n ≤ 31 := by
  have hb₁ : (if bank.toNat % 0x20 = 0 then 1 else bank.toNat % 0x20) ≤ 31 := by split <;> omega
  simp only [effBank]
  generalize (if bank.toNat % 0x20 = 0 then 1 else bank.toNat % 0x20) = b₁ at hb₁ ⊢
  split
  case isTrue => omega
  case isFalse => exact Nat.le_trans (Nat.mod_le b₁ n.val) hb₁

/-- R85: the index is the bank's bits above the low fourteen of the address. -/
theorem windowIndex_eq_append {e : Nat} (he : e ≤ 31) (a : Addr) :
    windowIndex e a = (BitVec.ofNat 5 e ++ a.extractLsb' 0 14).toNat := by
  rw [BitVec.toNat_append, BitVec.toNat_ofNat, Nat.mod_eq_of_lt (show e < 2 ^ 5 by omega),
    ← Nat.shiftLeft_add_eq_or_of_lt (BitVec.isLt _), Nat.shiftLeft_eq, BitVec.extractLsb'_toNat]
  simp [windowIndex, Config.bankSize, slice]

/-- Settles O45: a bank of five bits and an address of fourteen. -/
theorem windowIndexFitsNineteenBits : Obligations.WindowIndexFitsNineteenBits := by
  intro bank n a ha
  have he := effBank_le_31 bank n
  have hi := windowIndex_eq ha (effBank bank n)
  exact ⟨he, hi, windowIndex_eq_append he a, by omega⟩

/-! ### The header bytes -/

section
variable {x y : Image}

theorem checksumAfter_congr {k : Nat} (h : ∀ j < k, x.byte (0x134 + j) = y.byte (0x134 + j)) :
    checksumAfter x k = checksumAfter y k := by
  induction k with
  | zero => rfl
  | succ k ih =>
    rw [checksumAfter, checksumAfter, ih fun j hj => h j (by omega), h k (by omega)]

theorem titleScan_congr {i n : Nat} (h : ∀ j, i ≤ j → j < i + n → x.byte j = y.byte j) :
    titleScan x i n = titleScan y i n := by
  induction n generalizing i with
  | zero => rfl
  | succ n ih =>
    rw [titleScan, titleScan, h i (by omega) (by omega), ih fun j hj hj' => h j (by omega) (by omega)]

theorem titleLimit_le (im : Image) : titleLimit im ≤ 16 := by
  unfold titleLimit
  split <;> omega

theorem title_congr (p : Params) (h : ∀ i, 0x134 ≤ i → i ≤ 0x143 → x.byte i = y.byte i) :
    title p x = title p y := by
  have hlimit : titleLimit x = titleLimit y := by
    rw [titleLimit, titleLimit, cgbFlag, cgbFlag, h 0x143 (by omega) (by omega)]
  have hle := titleLimit_le y
  rw [title, title, hlimit, titleScan_congr fun j hj hj' => h j hj (by omega)]

variable {p : Params}

/-- The bytes summed are those of R91, to 0x14B or to 0x14C (R118). -/
theorem AgreeOnHeader.checksum_eq (h : AgreeOnHeader p x y) : checksum p x = checksum p y := by
  obtain ⟨-, -, hbytes, hlast, -, -⟩ := h
  refine checksumAfter_congr fun j hj => ?_
  cases hp : p.hdrCkLast with
  | through14B =>
    rw [hp, ChecksumEnd.count] at hj
    exact hbytes _ (by omega) (by omega)
  | through14C =>
    rw [hp, ChecksumEnd.count] at hj
    obtain rfl | hj : j = 24 ∨ j < 24 := by omega
    · exact hlast hp
    · exact hbytes _ (by omega) (by omega)

end

/-- Settles O50: each field is made of bytes that the two images share. -/
theorem headerDependsOnHeaderBytesOnly : Obligations.HeaderDependsOnHeaderBytesOnly := by
  intro p x y h
  have hck := h.checksum_eq
  obtain ⟨hx, hy, hbytes, -, hsgb, hstored⟩ := h
  have htitle : title p x = title p y := title_congr p fun i hi hi' => hbytes i hi (by omega)
  have hx' : ¬ x.size < Config.hdrMin := Nat.not_lt.mpr hx
  have hy' : ¬ y.size < Config.hdrMin := Nat.not_lt.mpr hy
  rw [parseHeader, parseHeader, if_neg hx', if_neg hy']
  simp only [cgbFlag, sgbFlag, headerChecksumOK, htitle, hck, hsgb, hstored,
    hbytes 0x143 (by decide) (by decide), hbytes 0x147 (by decide) (by decide),
    hbytes 0x148 (by decide) (by decide), hbytes 0x149 (by decide) (by decide)]

end Sys2Proof.Machine
end

section
/-! PROOFS. The requests that run no instruction, and the one a placed word makes:
`ReservedSelectorIsRefused`, `BadAddressArgumentFaults`, `PlacedWordIsServedNext`. -/

namespace Sys2Proof.Machine

/-! ### Requests refused, requests that fault at the entry -/

/-- A selector above 0x8 names no operation (R81). -/
theorem decode_of_reserved {p : Packet} (h : 0x9 ≤ slice 19 16 p.word) :
    decode p = .error (.reservedSelector (wordSel p.word)) := by
  unfold decode
  split
  case h_10 => rfl
  all_goals omega

/-- Settles O6: the packet is decoded whatever its address, and the decoder rejects its selector. -/
theorem reservedSelectorIsRefused : Obligations.ReservedSelectorIsRefused := by
  intro s r rest hp hr
  have hlt : r.sel.toNat < 16 := r.sel.isLt
  have hsel : wordSel (packetAt r 0).word = r.sel := by simp [packetAt, hlt]
  have hd := decode_of_reserved (p := packetAt r 0) (by rwa [← wordSel_toNat, hsel])
  rw [step_cons hp, serve, accept, if_neg (by omega), if_neg (by omega), acceptPacket, hd, hsel]

/-- An address that fails its check faults on a component that exists, before the decoder (R93, R198). -/
theorem serve_of_checkAddress_error {r : Request} {s : State} {f : FaultRecord} (hs : r.sel.toNat < 4)
    (hb : r.sel.toNat < 2 → s.bus ≠ none) (hc : 2 ≤ r.sel.toNat → s.cart ≠ none)
    (hf : checkAddress r.addr = .error f) : serve r s = raise f s := by
  have haccept : acceptAddressed r = .raised f := by simp [acceptAddressed, hf]
  by_cases h2 : r.sel.toNat < 2
  · obtain ⟨b, hb⟩ := Option.ne_none_iff_exists'.mp (hb h2)
    simp [serve, accept, h2, hb, haccept]
  · obtain ⟨c, hc⟩ := Option.ne_none_iff_exists'.mp (hc (by omega))
    simp [serve, accept, h2, hs, hc, haccept]

theorem checkAddress_out_of_range {z : Int} (h : z < 0 ∨ 0xFFFF < z) :
    checkAddress (.int z) = .error ⟨.outOfRange, .address⟩ :=
  if_neg (by omega)

/-- Settles O8: type and range are checked first, and a fault assigns nothing but the response. -/
theorem badAddressArgumentFaults : Obligations.BadAddressArgumentFaults := by
  intro s r rest hp hs hb hc
  rw [step_cons hp]
  refine ⟨fun ha => ?_, fun z ha hz => ?_⟩
  · exact serve_of_checkAddress_error hs hb hc (by rw [ha]; rfl)
  · exact serve_of_checkAddress_error hs hb hc (by rw [ha, checkAddress_out_of_range hz])

/-! ### A placed word -/

theorem decode_of_decodeTableWord {nbits w : Nat} {i : Instr} (h : decodeTableWord nbits w = some i) :
    decode (tablePacket w) = .ok i := by
  unfold decodeTableWord at h
  split at h <;> cases h
  assumption

/-- Settles O7: the placed word is the oldest request, and serving it takes it off again. -/
theorem placedWordIsServedNext : Obligations.PlacedWordIsServedNext := by
  intro s nbits w i h
  have hd := decode_of_decodeTableWord h
  rw [step_cons (r := requestOf (tablePacket w)) rfl, serve_requestOf hd]
  rfl

end Sys2Proof.Machine
end

section
/-! PROOFS. What the header decoder computes, and what HOST.HDR answers: `ChecksumClosedForm`,
`FlippedHeaderByteFailsTheChecksum`, `TitleIsTheTrimmedPrefix`, `HeaderDecodeOutcome`,
`DefaultTablesAsListed`. -/

namespace Sys2Proof.Machine

/-! ### The checksum -/

/-- R118: each byte takes itself and one more off. -/
theorem checksumAfter_eq_neg_sum (im : Image) (k : Nat) : checksumAfter im k =
    -((List.range k).map fun j => im.byte (0x134 + j)).sum - BitVec.ofNat 8 k := by
  induction k with
  | zero => simp [checksumAfter]
  | succ k ih =>
    have hcount : BitVec.ofNat 8 (k + 1) = BitVec.ofNat 8 k + 1 := BitVec.ofNat_add k 1
    rw [checksumAfter, ih, hcount, List.range_succ, List.map_append, List.sum_append, List.map_singleton,
      List.sum_singleton]
    grind

/-- Settles O47: the closed form is that of every prefix, and the flag is the comparison. -/
theorem checksumClosedForm : Obligations.ChecksumClosedForm :=
  fun p im => ⟨checksumAfter_eq_neg_sum im p.hdrCkLast.count, decide_eq_true_iff⟩

/-- Past the only byte in which two images differ their checksums differ. -/
theorem checksumAfter_ne {x y : Image} {j : Nat} (hj : x.byte (0x134 + j) ≠ y.byte (0x134 + j))
    (h : ∀ i, i ≠ 0x134 + j → x.byte i = y.byte i) {k : Nat} (hk : j + 1 ≤ k) :
    checksumAfter x k ≠ checksumAfter y k := by
  induction hk with
  | refl =>
    have hprefix : checksumAfter x j = checksumAfter y j :=
      checksumAfter_congr fun i hi => h (0x134 + i) (by omega)
    rw [checksumAfter, checksumAfter, hprefix]
    grind
  | @step k hk ih =>
    have hjk : j < k := hk
    rw [checksumAfter, checksumAfter, h (0x134 + k) (by omega)]
    grind

/-- Settles O48: the checksum changes, and the byte 0x14D, which is not summed, does not. -/
theorem flippedHeaderByteFailsTheChecksum : Obligations.FlippedHeaderByteFailsTheChecksum := by
  intro p x y j hlo hhi hne hsame hx
  obtain ⟨k, rfl⟩ := Nat.exists_eq_add_of_le hlo
  have hsum : checksum p x ≠ checksum p y := checksumAfter_ne hne hsame (by omega)
  have hle : p.hdrCkLast.count ≤ 25 := by cases p.hdrCkLast <;> decide
  have hstored : x.byte 0x14D = y.byte 0x14D := hsame _ (by omega)
  have hok : checksum p x = x.byte 0x14D := of_decide_eq_true hx
  exact decide_eq_false fun hy => hsum (by rw [hok, hy, hstored])

/-! ### The title -/

/-- R112: bit 7 of byte 0x143 chooses the limit. -/
theorem titleLimit_eq (im : Image) :
    titleLimit im = if (im.byte 0x143).getLsbD 7 then 11 else 16 := by
  simp [titleLimit, cgbFlag, slice, BitVec.getLsbD, Nat.testBit_eq_decide_div_mod_eq]

/-- The scan takes the bytes up to its limit or the first zero byte. -/
theorem exists_titleScan_eq (im : Image) (i n : Nat) : ∃ m ≤ n,
    titleScan im i n = (List.range m).map (fun k => im.byte (i + k)) ∧
    (∀ k < m, im.byte (i + k) ≠ 0) ∧ (m = n ∨ im.byte (i + m) = 0) := by
  induction n generalizing i with
  | zero => exact ⟨0, Nat.le_refl _, rfl, by simp, .inl rfl⟩
  | succ n ih =>
    by_cases hz : im.byte i = 0
    · exact ⟨0, by omega, by simp [titleScan, hz], by simp, .inr hz⟩
    · obtain ⟨m, hm, hscan, hpos, hstop⟩ := ih (i + 1)
      have hshift (k : Nat) : i + 1 + k = i + (k + 1) := by omega
      simp only [hshift] at hscan hpos hstop
      refine ⟨m + 1, by omega, ?_, fun k hk => ?_, by simpa using hstop⟩
      · rw [titleScan, if_neg hz, hscan, List.range_succ_eq_map, List.map_cons, List.map_map]
        rfl
      · cases k with
        | zero => exact hz
        | succ k => exact hpos k (by omega)

theorem trimEnd_concat (ws l : List Byte) (b : Byte) :
    trimEnd ws (l ++ [b]) = if b ∈ ws then trimEnd ws l else l ++ [b] := by
  induction l with
  | nil => rfl
  | cons a l ih =>
    rw [List.cons_append, trimEnd, ih]
    by_cases hb : b ∈ ws
    · simp only [if_pos hb, trimEnd]
    · simp only [if_neg hb]
      cases l <;> rfl

/-- Trimming drops the longest end that lies in `ws`. -/
theorem exists_trimEnd_eq (ws : List Byte) (f : Nat → Byte) (m : Nat) : ∃ n ≤ m,
    trimEnd ws ((List.range m).map f) = (List.range n).map f ∧
    (∀ k, n ≤ k → k < m → f k ∈ ws) ∧ (∀ k, n = k + 1 → f k ∉ ws) := by
  induction m with
  | zero => exact ⟨0, Nat.le_refl _, rfl, by omega, by omega⟩
  | succ m ih =>
    rw [List.range_succ, List.map_append, List.map_singleton, trimEnd_concat]
    by_cases hw : f m ∈ ws
    · obtain ⟨n, hn, htrim, hin, hlast⟩ := ih
      refine ⟨n, by omega, by rw [if_pos hw, htrim], fun k hnk hkm => ?_, hlast⟩
      obtain rfl | hkm : k = m ∨ k < m := by omega
      · exact hw
      · exact hin k hnk hkm
    · refine ⟨m + 1, Nat.le_refl _, by simp [hw, List.range_succ], by omega, fun k hk => ?_⟩
      obtain rfl : m = k := by omega
      exact hw

/-- Settles O49: the scan stops at `m`, and the trim cuts what it took to `n`. -/
theorem titleIsTheTrimmedPrefix : Obligations.TitleIsTheTrimmedPrefix := by
  intro p im
  rw [← titleLimit_eq]
  obtain ⟨m, hm, hscan, hpos, hstop⟩ := exists_titleScan_eq im 0x134 (titleLimit im)
  obtain ⟨n, hn, htrim, hin, hlast⟩ := exists_trimEnd_eq p.titleWs (fun k => im.byte (0x134 + k)) m
  exact ⟨m, n, hn, hm, hpos, hstop, by rw [title, hscan, htrim], hin, hlast⟩

/-! ### HOST.HDR -/

/-- HOST.HDR of an image that decodes (R110). -/
theorem exec_hostHdr_of_ok {s : State} {im : Image} {h : Header} (hp : parseHeader s.params im = .ok h) :
    exec (.hostHdr im) s = respond (.header h) s := by
  simp [exec, execHostHdr, hp]

/-- HOST.HDR of an image that does not (R119). -/
theorem exec_hostHdr_of_error {s : State} {im : Image} {f : FaultRecord}
    (hp : parseHeader s.params im = .error f) : exec (.hostHdr im) s = raise f s := by
  simp [exec, execHostHdr, hp]

section
variable {p : Params} {im : Image}

theorem parseHeader_of_short (hs : im.size < Config.hdrMin) :
    parseHeader p im = .error ⟨.malformedInput, .romTooShort⟩ :=
  if_pos hs

variable (hs : Config.hdrMin ≤ im.size)
include hs

theorem parseHeader_of_unknownCartType (hty : lookupCode p.cartTypeTable.val (im.byte 0x147) = none) :
    parseHeader p im = .error ⟨.malformedInput, .unknownCartType⟩ := by
  simp only [parseHeader, if_neg (Nat.not_lt.mpr hs), hty]

theorem parseHeader_of_unknownRomSize (hty : lookupCode p.cartTypeTable.val (im.byte 0x147) ≠ none)
    (hn : lookupCode p.romSizeTable (im.byte 0x148) = none) :
    parseHeader p im = .error ⟨.malformedInput, .unknownRomSize⟩ := by
  obtain ⟨ty, hty⟩ := Option.ne_none_iff_exists'.mp hty
  simp only [parseHeader, if_neg (Nat.not_lt.mpr hs), hty, hn]

theorem parseHeader_of_unknownRamSize (hty : lookupCode p.cartTypeTable.val (im.byte 0x147) ≠ none)
    (hn : lookupCode p.romSizeTable (im.byte 0x148) ≠ none)
    (hm : lookupCode p.ramSizeTable (im.byte 0x149) = none) :
    parseHeader p im = .error ⟨.malformedInput, .unknownRamSize⟩ := by
  obtain ⟨ty, hty⟩ := Option.ne_none_iff_exists'.mp hty
  obtain ⟨n, hn⟩ := Option.ne_none_iff_exists'.mp hn
  simp only [parseHeader, if_neg (Nat.not_lt.mpr hs), hty, hn, hm]

/-- An image long enough with three known codes decodes to the record of R110: the converse of
`parseHeader_ok`. -/
theorem parseHeader_of_known {ty : CartType} {n : BankCount} {m : Nat}
    (hty : lookupCode p.cartTypeTable.val (im.byte 0x147) = some ty)
    (hn : lookupCode p.romSizeTable (im.byte 0x148) = some n)
    (hm : lookupCode p.ramSizeTable (im.byte 0x149) = some m) :
    parseHeader p im = .ok
      { title := title p im, type := ty, romBanks := n, ramBanks := m, cgbFlag := cgbFlag im
        sgbFlag := sgbFlag p im, headerChecksumOK := headerChecksumOK p im } := by
  simp only [parseHeader, if_neg (Nat.not_lt.mpr hs), hty, hn, hm]

end

/-- Settles O27: one clause for each branch of the decoder. -/
theorem headerDecodeOutcome : Obligations.HeaderDecodeOutcome := by
  intro s im p ty n m faults
  exact ⟨fun hs => exec_hostHdr_of_error (parseHeader_of_short hs),
    fun hs hty => exec_hostHdr_of_error (parseHeader_of_unknownCartType hs hty),
    fun hs hty hn => exec_hostHdr_of_error (parseHeader_of_unknownRomSize hs hty hn),
    fun hs hty hn hm => exec_hostHdr_of_error (parseHeader_of_unknownRamSize hs hty hn hm),
    fun _ _ _ hs hty hn hm => exec_hostHdr_of_ok (parseHeader_of_known hs hty hn hm)⟩

/-! ### The default tables -/

/-- Settles O51, by looking up each of the 256 codes in each of the three tables. -/
theorem defaultTablesAsListed : Obligations.DefaultTablesAsListed :=
  ⟨by decide, by decide, by decide⟩

end Sys2Proof.Machine
end

section
/-! PROOFS. The cartridge port and the accesses the bus forwards to it, by the lifecycle and the region:
`CartridgeReadOfRomAnswersItsByte`, `ControlWriteSetsTheBank`, `WriteToRomFaults`,
`PortAccessOutOfRangeFaults`, `DisposedReadsFault`, `DisposedWritesFault`. -/

namespace Sys2Proof.Machine

/-! ### A guarded access in either lifecycle state -/

section
variable {s : State} {c : Cartridge} (hc : s.cart = some c)
include hc

/-- In a loaded cartridge a guarded read is what its region answers (R135). -/
theorem guardedRead_of_loaded {h : Header} (hl : c.life = .loaded h)
    (k : Cartridge → Header → Except FaultRecord Byte) :
    (withCart s fun c => finishRead (guardRead c (k c)) s) = finishRead (k c h) s := by
  rw [withCart_some hc, guardRead_loaded hl]

/-- In a loaded cartridge a guarded write is what its region makes of it (R140). -/
theorem guardedWrite_of_loaded {h : Header} (hl : c.life = .loaded h)
    (k : Cartridge → Header → Except FaultRecord Cartridge) :
    (withCart s fun c => finishCartWrite (guardWrite c (k c)) s) = finishCartWrite (k c h) s := by
  rw [withCart_some hc, guardWrite_loaded hl]

/-- In a disposed cartridge a guarded read faults, whatever its region (R135, F7). -/
theorem guardedRead_of_disposed (hl : c.life = .disposed)
    (k : Cartridge → Header → Except FaultRecord Byte) :
    (withCart s fun c => finishRead (guardRead c (k c)) s) =
      .next (s.setResponse (.fault ⟨.outOfRange, .cartridgeDisposed⟩)) := by
  rw [withCart_some hc, guardRead_disposed hl, finishRead_error]

/-- In a disposed cartridge a guarded write faults, whatever its region (R140, F8). -/
theorem guardedWrite_of_disposed (hl : c.life = .disposed)
    (k : Cartridge → Header → Except FaultRecord Cartridge) :
    (withCart s fun c => finishCartWrite (guardWrite c (k c)) s) =
      .next (s.setResponse (.fault ⟨.invalidOperation, .cartridgeDisposed⟩)) := by
  rw [withCart_some hc, guardWrite_disposed hl, finishCartWrite_error]

end

/-! ### The accesses the bus forwards -/

/-- A forwarded bus read has the outcome of CART.RD at its address (R163). -/
theorem exec_forwardedRead {s : State} (hb : s.bus ≠ none) {a : Addr} {i : Instr}
    (hi : i = .busRdCart a ∨ i = .busRdEram a) : exec i s = exec (decodeCartRead a) s := by
  obtain ⟨b, hb⟩ := Option.ne_none_iff_exists'.mp hb
  have hport : exec i s = withCart s fun c => finishRead (cartRead c a) s := by
    obtain rfl | rfl := hi <;> exact withBus_some hb _
  cases hc : s.cart with
  | none => rw [hport, withCart_none hc, exec_decodeCartRead_of_no_cart hc]
  | some c => rw [hport, withCart_some hc, exec_decodeCartRead hc]

/-- A forwarded bus write has the outcome of CART.WR at its address (R163). -/
theorem exec_forwardedWrite {s : State} (hb : s.bus ≠ none) {a : Addr} {v : Byte} {i : Instr}
    (hi : i = .busWrCart a v ∨ i = .busWrEram a v) : exec i s = exec (decodeCartWrite a v) s := by
  obtain ⟨b, hb⟩ := Option.ne_none_iff_exists'.mp hb
  have hport : exec i s = withCart s fun c => finishCartWrite (cartWrite c a v) s := by
    obtain rfl | rfl := hi <;> exact withBus_some hb _
  cases hc : s.cart with
  | none => rw [hport, withCart_none hc, exec_decodeCartWrite_of_no_cart hc]
  | some c => rw [hport, withCart_some hc, exec_decodeCartWrite hc]

/-- CART.WR at an address of a region is the region's write (R83). -/
theorem decodeCartWrite_of_contains {a : Addr} {g : CartWriteRegion} (h : g.contains a = true) (v : Byte) :
    decodeCartWrite a v = g.write a v := by
  rw [decodeCartWrite_eq, cartWriteRegion_of_contains h]

/-! ### A loaded cartridge -/

/-- Settles O22: each window's index is the address's own expression. -/
theorem cartridgeReadOfRomAnswersItsByte : Obligations.CartridgeReadOfRomAnswersItsByte := by
  intro s c h a hc hl
  constructor
  · intro ha
    refine (guardedRead_of_loaded hc hl _).trans ?_
    rw [readRom0, fixedIndex_eq ha]
    rfl
  · intro ha
    refine (guardedRead_of_loaded hc hl _).trans ?_
    rw [readRomx, windowIndex_eq ha]
    rfl

/-- Settles O20: the port's write sets the register, and a bus write of the window is the port's. -/
theorem controlWriteSetsTheBank : Obligations.ControlWriteSetsTheBank := by
  intro s c h a v hc hl ha
  have hport : exec (.cartWrBank a v) s = .next ((s.setCart (some
      { c with bank := BitVec.ofNat 5 (v.toNat % 0x20) })).setResponse .ok) := by
    refine (guardedWrite_of_loaded hc hl _).trans ?_
    rw [writeBank, bankField_eq, finishCartWrite_ok]
  refine ⟨hport, fun hb => ?_⟩
  rw [exec_forwardedWrite hb (.inl rfl), decodeCartWrite_of_contains (g := .bank) (inRange_iff.mpr ha)]
  exact hport

/-- Settles O21: both regions fault at the port, and a bus write there is the port's. -/
theorem writeToRomFaults : Obligations.WriteToRomFaults := by
  intro s c h a v hc hl
  have hlo : exec (.cartWrRomlo a v) s = finishCartWrite (.error romWriteFault) s :=
    guardedWrite_of_loaded hc hl _
  have hhi : exec (.cartWrRomx a v) s = finishCartWrite (.error romWriteFault) s :=
    guardedWrite_of_loaded hc hl _
  refine ⟨fun _ => hlo, fun _ => hhi, fun hb ha => ?_⟩
  rw [exec_forwardedWrite hb (.inl rfl)]
  obtain ha | ha := ha
  · rw [decodeCartWrite_of_contains (g := .romlo) (inRange_iff.mpr ⟨Nat.zero_le _, ha⟩)]
    exact hlo
  · rw [decodeCartWrite_of_contains (g := .romx) (inRange_iff.mpr ha)]
    exact hhi

/-- Settles O23: once past the lifecycle, both operations raise the fault of R139 and R145. -/
theorem portAccessOutOfRangeFaults : Obligations.PortAccessOutOfRangeFaults :=
  fun _ _ _ _ _ hc hl _ => ⟨guardedRead_of_loaded hc hl _, guardedWrite_of_loaded hc hl _⟩

/-! ### A disposed cartridge -/

/-- Settles O24: the lifecycle comes before every region of the port, and the bus forwards to it. -/
theorem disposedReadsFault : Obligations.DisposedReadsFault := by
  intro s c a i hc hl hi
  simp only [List.mem_cons, List.not_mem_nil, or_false] at hi
  obtain hport | ⟨hb, hbus⟩ := hi
  · obtain rfl | rfl | rfl | rfl := hport <;> exact guardedRead_of_disposed hc hl _
  · rw [exec_forwardedRead hb hbus, exec_decodeCartRead hc, cartRead, guardRead_disposed hl]
    rfl

/-- Settles O25: the lifecycle comes before every region of the port, and the bus forwards to it. -/
theorem disposedWritesFault : Obligations.DisposedWritesFault := by
  intro s c a v i hc hl hi
  simp only [List.mem_cons, List.not_mem_nil, or_false] at hi
  obtain hport | ⟨hb, hbus⟩ := hi
  · obtain rfl | rfl | rfl | rfl | rfl := hport <;> exact guardedWrite_of_disposed hc hl _
  · rw [exec_forwardedWrite hb hbus, exec_decodeCartWrite hc, cartWrite, guardWrite_disposed hl]
    rfl

end Sys2Proof.Machine
end

section
/-! PROOFS. The host operations of the cartridge: `LoadBuildsTheCartridge`, `FailedLoadLeavesNoCartridge`,
`AbsentComponentIsRefused`, `DisposeEmptiesTheCartridge`, `RomSizeAnswersTheLength`. -/

namespace Sys2Proof.Machine

/-! ### HOST.LOAD -/

/-- Settles O28: the canonical listing has the length and the bytes of the image. -/
theorem loadBuildsTheCartridge : Obligations.LoadBuildsTheCartridge :=
  fun _ im _ hp => ⟨_, _, exec_hostLoad_of_ok hp, rfl, im.normal_size, im.byte_normal, rfl, rfl, rfl, rfl, rfl⟩

/-- A fault of the header decoder is one of the rows F1 to F4 of R192, with its condition. -/
theorem headerFault_of_parseHeader_error {p : Params} {im : Image} {f : FaultRecord}
    (hp : parseHeader p im = .error f) : HeaderFault p im f := by
  unfold parseHeader at hp
  split at hp
  case isTrue hs => cases hp; exact ⟨rfl, .inl ⟨rfl, hs⟩⟩
  split at hp
  case h_1 hty => cases hp; exact ⟨rfl, .inr (.inl ⟨rfl, hty⟩)⟩
  split at hp
  case h_1 hn => cases hp; exact ⟨rfl, .inr (.inr (.inl ⟨rfl, hn⟩))⟩
  split at hp
  case h_1 hm => cases hp; exact ⟨rfl, .inr (.inr (.inr ⟨rfl, hm⟩))⟩
  cases hp

/-- HOST.LOAD of an image that does not decode (R130, R200). -/
theorem exec_hostLoad_of_error {s : State} {im : Image} {f : FaultRecord}
    (hp : parseHeader s.params im = .error f) :
    exec (.hostLoad im) s = .next (((s.setCart none).setBus none).setResponse (.fault f)) := by
  simp [exec, execHostLoad, hp]

/-- Settles O29: every fault of the decoder is `MalformedInput`. -/
theorem failedLoadLeavesNoCartridge : Obligations.FailedLoadLeavesNoCartridge := by
  intro s im f hp
  obtain ⟨hkind, -⟩ := headerFault_of_parseHeader_error hp
  exact ⟨hkind, exec_hostLoad_of_error hp⟩

/-! ### Absent components -/

/-- HOST.HDR answers in every state: it needs no component (R110). -/
theorem exists_exec_hostHdr_next (im : Image) (s : State) : ∃ t, exec (.hostHdr im) s = .next t := by
  cases hp : parseHeader s.params im with
  | ok h => exact ⟨_, exec_hostHdr_of_ok hp⟩
  | error f => exact ⟨_, exec_hostHdr_of_error hp⟩

/-- HOST.LOAD answers in every state: it needs no component (R130). -/
theorem exists_exec_hostLoad_next (im : Image) (s : State) : ∃ t, exec (.hostLoad im) s = .next t := by
  cases hp : parseHeader s.params im with
  | ok h => exact ⟨_, exec_hostLoad_of_ok hp⟩
  | error f => exact ⟨_, exec_hostLoad_of_error hp⟩

/-- Settles O30: whatever region an address decodes to, its operation looks for its component first. -/
theorem absentComponentIsRefused : Obligations.AbsentComponentIsRefused := by
  refine ⟨fun s a v ram im hc => ?_, fun s a v hb => ?_, fun s t im h hp ht => ?_⟩
  · exact ⟨exec_decodeCartRead_of_no_cart hc a, exec_decodeCartWrite_of_no_cart hc a v,
      withCart_none hc _, withCart_none hc _, withCart_none hc _,
      exists_exec_hostHdr_next im s, exists_exec_hostLoad_next im s⟩
  · exact ⟨exec_decodeBusRead_of_no_bus hb a, exec_decodeBusWrite_of_no_bus hb a v⟩
  · obtain rfl := Host.Outcome.next.inj ((exec_hostLoad_of_ok hp).symm.trans ht)
    rfl

/-! ### HOST.DISPOSE and HOST.ROMSIZE -/

/-- Settles O32: HOST.DISPOSE finds the cartridge it left, and leaves it again. -/
theorem disposeEmptiesTheCartridge : Obligations.DisposeEmptiesTheCartridge :=
  fun _ _ hc => ⟨_, exec_hostDispose_of_cart hc, rfl, exec_hostDispose_of_cart rfl⟩

/-- HOST.ROMSIZE of a cartridge (R132). -/
theorem exec_hostRomsize_of_cart {s : State} {c : Cartridge} (hc : s.cart = some c) :
    exec .hostRomsize s = .next (s.setResponse (.size c.rom.size)) :=
  withCart_some hc _

/-- Settles O33: HOST.DISPOSE leaves the image of no bytes. -/
theorem romSizeAnswersTheLength : Obligations.RomSizeAnswersTheLength := by
  intro s t c hc
  refine ⟨exec_hostRomsize_of_cart hc, fun hd => ?_⟩
  obtain rfl := Host.Outcome.next.inj ((exec_hostDispose_of_cart hc).symm.trans hd)
  exact exec_hostRomsize_of_cart (c := { rom := Image.empty, bank := Config.bankReset, life := .disposed }) rfl

end Sys2Proof.Machine
end

section
/-! PROOFS. The bank multiplexer in the register and the bank count: `EffectiveBankProperties`,
`EffectiveBankOfPowersOfTwo`. -/

namespace Sys2Proof.Machine

/-- R134 on the coerced register `b₁`. -/
theorem effBank_eq {bank : BitVec 5} {b₁ : Nat} (hb : b₁ = if bank.toNat = 0 then 1 else bank.toNat)
    (n : BankCount) :
    effBank bank n = if b₁ % n.val = 0 ∧ 1 < n.val then 1 else b₁ % n.val := by
  have hlt : bank.toNat % 0x20 = bank.toNat := Nat.mod_eq_of_lt bank.isLt
  simp only [effBank, hlt, hb]

/-- With two banks or more the two coercions are one: the register is reduced, and a remainder of 0
selects bank 1. -/
theorem effBank_of_two_le (bank : BitVec 5) {n : BankCount} (hn : 2 ≤ n.val) :
    effBank bank n = if bank.toNat % n.val = 0 then 1 else bank.toNat % n.val := by
  rw [effBank_eq rfl]
  by_cases hz : bank.toNat = 0
  · simp [hz, Nat.mod_eq_of_lt (show 1 < n.val by omega)]
  · simp [hz, show 1 < n.val by omega]

/-- With 32 banks or more the five-bit register needs no reduction. -/
theorem effBank_of_32_le (bank : BitVec 5) {n : BankCount} (hn : 32 ≤ n.val) :
    effBank bank n = if bank.toNat = 0 then 1 else bank.toNat := by
  have hlt : bank.toNat < 32 := bank.isLt
  rw [effBank_of_two_le bank (by omega), Nat.mod_eq_of_lt (by omega)]

/-- Settles O43: (a) to (e) are the bounds of the effective bank and its two forms for larger `N`, and a
remainder by a power of two is a mask. -/
theorem effectiveBankProperties : Obligations.EffectiveBankProperties := by
  intro bank n
  have hlt := effBank_lt bank n
  refine ⟨fun b₁ b₂ hb₁ hb₂ => ?_, effBank_of_one_bank bank, fun hn => ?_, fun hn => ?_,
    fun hn _ => ⟨effBank_pos bank hn, by omega, fun hdvd => ?_⟩, ?_, fun b₁ k _ hn => ?_⟩
  · rw [effBank_eq hb₁, hb₂]
  · have hpos := effBank_pos bank (n := n) (by omega)
    omega
  · rw [effBank_of_32_le bank hn]
    split <;> omega
  · rw [effBank_of_two_le bank hn, if_pos (Nat.mod_eq_zero_of_dvd hdvd)]
  · rw [effBank_eq (bank := 0) (b₁ := 1) rfl, effBank_eq (bank := 1) (b₁ := 1) rfl]
  · rw [hn, Nat.and_two_pow_sub_one_eq_mod]

/-- Settles O44: `2^k` is 1, at least 2, or at least 64. -/
theorem effectiveBankOfPowersOfTwo : Obligations.EffectiveBankOfPowersOfTwo := by
  intro bank n k hn
  refine ⟨fun hk => ?_, fun hk _ => ?_, fun hk _ => ?_⟩
  · exact effBank_of_one_bank bank (by rw [hn, hk, Nat.pow_zero])
  · have h2 : 2 ^ 1 ≤ 2 ^ k := Nat.pow_le_pow_right (by decide) hk
    rw [effBank_of_two_le bank (by omega), ite_not]
  · have h64 : 2 ^ 6 ≤ 2 ^ k := Nat.pow_le_pow_right (by decide) hk
    exact effBank_of_32_le bank (by omega)

end Sys2Proof.Machine
end

section
/-! PROOFS. The bus where it answers by itself and where it forwards: `WorkRamWriteStoresOneByte`,
`HighRamAndInterruptEnableWritesStoreOneByte`, `BusForwardsToTheCartridgePort`, `AttachCreatesTheStores`,
`BusOwnedRegionsIgnoreTheCartridge`, `BusReadOfRomAnswersItsByte`, `BusReadOfStoresAnswersTheByte`,
`RegionsWithoutStorageReadFF`, `WritesWithoutStorageChangeNothing`. -/

namespace Sys2Proof.Machine

/-! ### The bus-owned stores -/

/-- Settles O15: each region's index is the address's own expression. -/
theorem busReadOfStoresAnswersTheByte : Obligations.BusReadOfStoresAnswersTheByte := by
  intro s b a hb
  refine ⟨fun ha => ?_, fun ha => ?_, fun ha => ?_, withBus_some hb _⟩
  · rw [← wramIndex_eq ha]
    exact withBus_some hb _
  · rw [← echoIndex_eq ha]
    exact withBus_some hb _
  · rw [← hramIndex_eq ha]
    exact withBus_some hb _

/-- Settles O17: both windows write the one store at the address's index, and a canonical store changes
at the written index alone. -/
theorem workRamWriteStoresOneByte : Obligations.WorkRamWriteStoresOneByte := by
  intro s b a v hinv hb
  obtain ⟨hw, -⟩ := hinv.busCanonical b hb
  refine ⟨fun ha => ⟨_, withBus_some hb _, fun i => ?_⟩, fun ha => ⟨_, withBus_some hb _, fun i => ?_⟩⟩
  · simp only [Memory.read_write hw, wramIndex_eq ha, eq_comm (a := i)]
  · simp only [Memory.read_write hw, echoIndex_eq ha, eq_comm (a := i)]

/-- Settles O18: as for work RAM; the interrupt-enable byte is a field of its own. -/
theorem highRamAndInterruptEnableWritesStoreOneByte :
    Obligations.HighRamAndInterruptEnableWritesStoreOneByte := by
  intro s b a v hinv hb
  obtain ⟨-, hh⟩ := hinv.busCanonical b hb
  refine ⟨fun ha => ⟨_, withBus_some hb _, fun i => ?_⟩, withBus_some hb _⟩
  simp only [Memory.read_write hh, hramIndex_eq ha, eq_comm (a := i)]

/-- Settles O31: the canonical listing of a draw has the draw's bytes. -/
theorem attachCreatesTheStores : Obligations.AttachCreatesTheStores :=
  fun _ _ ram hc => ⟨drawnBus ram, exec_hostAttach_of_cart hc ram,
    fun _ hi => Memory.read_ofCells _ _ hi, fun _ hi => Memory.read_ofCells _ _ hi, rfl⟩

/-! ### The cartridge's part in a transaction of the bus alone -/

section
variable {s t : State} (c : Option Cartridge)

/-- What is answered from the stores is answered alike under any cartridge. -/
theorem withBus_respond_setCart {f : Bus → Response} (h : (withBus s fun b => respond (f b) s) = .next t) :
    (withBus (s.setCart c) fun b => respond (f b) (s.setCart c)) = .next (t.setCart c) := by
  obtain ⟨b, hb, h⟩ := withBus_next h
  obtain rfl := respond_next.mp h
  exact withBus_some hb _

/-- What is written to the stores is written alike under any cartridge. -/
theorem withBus_finishBusWrite_setCart {f : Bus → Bus}
    (h : (withBus s fun b => finishBusWrite (f b) s) = .next t) :
    (withBus (s.setCart c) fun b => finishBusWrite (f b) (s.setCart c)) = .next (t.setCart c) := by
  obtain ⟨b, hb, h⟩ := withBus_next h
  obtain rfl := finishBusWrite_next.mp h
  exact withBus_some hb _

end

/-- Settles O58: the reads and the stub write answer from the stores, and the other writes write them. -/
theorem busOwnedRegionsIgnoreTheCartridge : Obligations.BusOwnedRegionsIgnoreTheCartridge := by
  intro i s t c a v hi h
  simp only [List.mem_cons, List.not_mem_nil, or_false] at hi
  obtain rfl | rfl | rfl | rfl | rfl | rfl | rfl | rfl | rfl | rfl := hi
  iterate 6 exact withBus_respond_setCart c h
  all_goals exact withBus_finishBusWrite_setCart c h

/-! ### The forwarded regions -/

/-- CART.RD at an address of a region is the region's read (R83). -/
theorem decodeCartRead_of_contains {a : Addr} {g : CartReadRegion} (h : g.contains a = true) :
    decodeCartRead a = g.read a := by
  rw [decodeCartRead_eq, cartReadRegion_of_contains h]

/-- Settles O26: an out-of-range transaction is well formed at no forwarded address. -/
theorem busForwardsToTheCartridgePort : Obligations.BusForwardsToTheCartridgePort := by
  intro s a v hb
  refine ⟨fun _ => ⟨exec_forwardedRead hb (.inl rfl), exec_forwardedWrite hb (.inl rfl)⟩,
    fun _ => ⟨exec_forwardedRead hb (.inr rfl), exec_forwardedWrite hb (.inr rfl)⟩,
    fun ha => ⟨fun hd => ?_, fun hd => ?_⟩⟩
  · have hwf := wf_decodeCartRead a
    simp only [hd, Instr.wf, Bool.or_eq_true, inRange_iff] at hwf
    omega
  · have hwf := wf_decodeCartWrite a v
    simp only [hd, Instr.wf, Bool.or_eq_true, inRange_iff] at hwf
    omega

/-- Settles O14: the bus forwards to the port's read of the window the address lies in. -/
theorem busReadOfRomAnswersItsByte : Obligations.BusReadOfRomAnswersItsByte := by
  intro s c h b a hc hl hb ha
  obtain ⟨hrom0, hromx⟩ := cartridgeReadOfRomAnswersItsByte s c h a hc hl
  rw [exec_forwardedRead (by simp [hb]) (.inl rfl)]
  by_cases h0 : a.toNat ≤ 0x3FFF
  · rw [decodeCartRead_of_contains (g := .rom0) (inRange_iff.mpr ⟨Nat.zero_le _, h0⟩), if_pos h0]
    exact hrom0 h0
  · have hx : 0x4000 ≤ a.toNat ∧ a.toNat ≤ 0x7FFF := ⟨Nat.lt_of_not_le h0, ha⟩
    rw [decodeCartRead_of_contains (g := .romx) (inRange_iff.mpr hx), if_neg h0]
    exact hromx hx

/-! ### The regions without storage -/

/-- Settles O16: a stub answers by itself; the port answers for external RAM, and the bus forwards to it. -/
theorem regionsWithoutStorageReadFF : Obligations.RegionsWithoutStorageReadFF := by
  refine fun s a => ⟨fun hb => ?_, fun c h hc hl ha => ?_⟩
  · obtain ⟨b, hb⟩ := Option.ne_none_iff_exists'.mp hb
    exact withBus_some hb _
  · have hport : exec (.cartRdEram a) s = .next (s.setResponse (.byte 0xFF)) :=
      guardedRead_of_loaded hc hl _
    refine ⟨hport, fun hb => ?_⟩
    rw [exec_forwardedRead hb (.inr rfl), decodeCartRead_of_contains (g := .eram) (inRange_iff.mpr ha)]
    exact hport

/-- Settles O19: a stub write only answers; the port leaves its cartridge for external RAM, and the bus
forwards to it. -/
theorem writesWithoutStorageChangeNothing : Obligations.WritesWithoutStorageChangeNothing := by
  refine fun s a v => ⟨fun hb => ?_, fun c h hc hl ha => ?_⟩
  · obtain ⟨b, hb⟩ := Option.ne_none_iff_exists'.mp hb
    exact withBus_some hb _
  · have hport : exec (.cartWrEram a v) s = .next (s.setResponse .ok) := by
      refine (guardedWrite_of_loaded hc hl _).trans ?_
      rw [finishCartWrite_ok, State.setCart_self hc]
    refine ⟨hport, fun hb => ?_⟩
    rw [exec_forwardedWrite hb (.inr rfl),
      decodeCartWrite_of_contains (g := .eram) (inRange_iff.mpr ha)]
    exact hport

end Sys2Proof.Machine
end

section
/-! PROOFS. The transactions that raise a fault, and what a fault leaves: `FaultLeavesNoTrace`,
`RepeatedFaultIsTheSame`, `FaultsOnlyAtTheFaultSites`. -/

namespace Sys2Proof.Machine

/-! ### What a fault leaves -/

/-- A transaction that raised left nothing but its response, or is a HOST.LOAD whose image does not
decode. -/
theorem ExecEffect.of_fault {s t : State} {i : Instr} {f : FaultRecord} (he : ExecEffect s i t)
    (hf : t.response = some (.fault f)) :
    t = s.setResponse (.fault f) ∨
    ∃ im, i = .hostLoad im ∧ parseHeader s.params im = .error f ∧
      t = ((s.setCart none).setBus none).setResponse (.fault f) := by
  cases he
  case answer p =>
    cases hf
    exact .inl rfl
  case loadFault im f' hp =>
    cases hf
    exact .inr ⟨im, rfl, hp, rfl⟩
  all_goals cases hf

/-- Settles O54: only HOST.LOAD leaves more of a fault than the response. -/
theorem faultLeavesNoTrace : Obligations.FaultLeavesNoTrace := by
  intro i s t f hload h hf
  obtain ht | ⟨im, hi, -⟩ := (exec_next h).of_fault hf
  · exact ht
  · exact absurd hi (hload im)

/-- Settles O55: no instruction reads the response, and HOST.LOAD decodes the same image under the same
configuration, whatever cartridge it finds. -/
theorem repeatedFaultIsTheSame : Obligations.RepeatedFaultIsTheSame := by
  intro i s t f h hf
  obtain rfl | ⟨im, rfl, hp, rfl⟩ := (exec_next h).of_fault hf <;> rw [exec_setResponse]
  · exact h
  · exact exec_hostLoad_of_error (s := (s.setCart none).setBus none) hp

/-! ### The fault of each shared operation -/

/-- An operation of the bus that answers a next state had one. -/
theorem bus_ne_none_of_withBus_next {s t : State} {k : Bus → Host.Outcome State Fault Refusal}
    (h : withBus s k = .next t) : s.bus ≠ none := by
  obtain ⟨b, hb, -⟩ := withBus_next h
  exact hb ▸ Option.some_ne_none b

section
variable {s t : State} {f : FaultRecord} (hf : t.response = some (.fault f))
include hf

/-- The response of an answer is the one it delivers. -/
theorem eq_fault_of_respond {r : Response} (h : respond r s = .next t) : r = .fault f := by
  obtain rfl := respond_next.mp h
  exact Option.some.inj hf

/-- A read that ended in a fault raised it. -/
theorem eq_error_of_finishRead {r : Except FaultRecord Byte} (h : finishRead r s = .next t) :
    r = .error f := by
  cases r with
  | ok v => cases eq_fault_of_respond hf h
  | error e => rw [Response.fault.inj (eq_fault_of_respond hf h)]

/-- A cartridge write that ended in a fault raised it. -/
theorem eq_error_of_finishCartWrite {r : Except FaultRecord Cartridge} (h : finishCartWrite r s = .next t) :
    r = .error f := by
  cases r with
  | ok c => cases eq_fault_of_respond hf h
  | error e => rw [Response.fault.inj (eq_fault_of_respond hf h)]

/-- A guarded read faults after disposal (F7), or where its region faults in a loaded cartridge. -/
theorem fault_of_guardedRead {k : Cartridge → Header → Except FaultRecord Byte}
    (h : (withCart s fun c => finishRead (guardRead c (k c)) s) = .next t) :
    DisposedReadFault s f ∨ (IsLoaded s ∧ ∃ c hd, k c hd = .error f) := by
  obtain ⟨c, hc, h⟩ := withCart_next h
  have hk : guardRead c (k c) = .error f := eq_error_of_finishRead hf h
  cases hl : c.life with
  | disposed =>
    rw [guardRead_disposed hl] at hk
    cases hk
    exact .inl ⟨⟨c, hc, hl⟩, rfl⟩
  | loaded hd =>
    rw [guardRead_loaded hl] at hk
    exact .inr ⟨⟨c, hd, hc, hl⟩, c, hd, hk⟩

/-- A guarded write faults after disposal (F8), or where its region faults in a loaded cartridge. -/
theorem fault_of_guardedWrite {k : Cartridge → Header → Except FaultRecord Cartridge}
    (h : (withCart s fun c => finishCartWrite (guardWrite c (k c)) s) = .next t) :
    DisposedWriteFault s f ∨ (IsLoaded s ∧ ∃ c hd, k c hd = .error f) := by
  obtain ⟨c, hc, h⟩ := withCart_next h
  have hk : guardWrite c (k c) = .error f := eq_error_of_finishCartWrite hf h
  cases hl : c.life with
  | disposed =>
    rw [guardWrite_disposed hl] at hk
    cases hk
    exact .inl ⟨⟨c, hc, hl⟩, rfl⟩
  | loaded hd =>
    rw [guardWrite_loaded hl] at hk
    exact .inr ⟨⟨c, hd, hc, hl⟩, c, hd, hk⟩

/-- A fault of HOST.HDR or HOST.LOAD is the header decoder's. -/
theorem parseHeader_error_of_fault {i : Instr} {im : Image} (hi : i = .hostHdr im ∨ i = .hostLoad im)
    (h : exec i s = .next t) : parseHeader s.params im = .error f := by
  cases hp : parseHeader s.params im with
  | ok hd =>
    obtain rfl | rfl := hi
    · cases eq_fault_of_respond hf ((exec_hostHdr_of_ok hp).symm.trans h)
    · cases eq_fault_of_respond hf ((exec_hostLoad_of_ok hp).symm.trans h)
  | error e =>
    obtain rfl | rfl := hi
    · rw [Response.fault.inj (eq_fault_of_respond hf ((exec_hostHdr_of_error hp).symm.trans h))]
    · rw [Response.fault.inj (eq_fault_of_respond hf ((exec_hostLoad_of_error hp).symm.trans h))]

/-! ### The fault sites of the cartridge port -/

/-- A cartridge-port read faults at its region's sites: after disposal, and at no region but the last. -/
theorem faultSite_of_cartRead {a : Addr} {g : CartReadRegion} (h : exec (g.read a) s = .next t) :
    FaultSite (g.read a) s f := by
  cases g with
  | rom0 | romx | eram => exact (fault_of_guardedRead hf h).resolve_right fun ⟨_, _, _, hk⟩ => nomatch hk
  | oor =>
    obtain hd | ⟨hl, -, -, ⟨⟩⟩ := fault_of_guardedRead hf h
    · exact .inl hd
    · exact .inr ⟨hl, rfl⟩

/-- A cartridge-port write faults at its region's sites: after disposal, in a ROM region and past the
cartridge. -/
theorem faultSite_of_cartWrite {a : Addr} {v : Byte} {g : CartWriteRegion}
    (h : exec (g.write a v) s = .next t) : FaultSite (g.write a v) s f := by
  cases g with
  | bank | eram => exact (fault_of_guardedWrite hf h).resolve_right fun ⟨_, _, _, hk⟩ => nomatch hk
  | romlo | romx | oor =>
    obtain hd | ⟨hl, -, -, ⟨⟩⟩ := fault_of_guardedWrite hf h
    · exact .inl hd
    · exact .inr ⟨hl, rfl⟩

/-- A forwarded bus read faults at the sites of the port's read of the region its address lies in. -/
theorem faultSite_of_forwardedRead {i : Instr} {a : Addr} {g : CartReadRegion}
    (hi : i = .busRdCart a ∨ i = .busRdEram a) (hg : g.contains a = true) (h : exec i s = .next t) :
    FaultSite (g.read a) s f := by
  have hb : s.bus ≠ none := by obtain rfl | rfl := hi <;> exact bus_ne_none_of_withBus_next h
  rw [exec_forwardedRead hb hi, decodeCartRead_of_contains hg] at h
  exact faultSite_of_cartRead hf h

/-- A forwarded bus write faults at the sites of the port's write of the region its address lies in. -/
theorem faultSite_of_forwardedWrite {i : Instr} {a : Addr} {v : Byte} {g : CartWriteRegion}
    (hi : i = .busWrCart a v ∨ i = .busWrEram a v) (hg : g.contains a = true) (h : exec i s = .next t) :
    FaultSite (g.write a v) s f := by
  have hb : s.bus ≠ none := by obtain rfl | rfl := hi <;> exact bus_ne_none_of_withBus_next h
  rw [exec_forwardedWrite hb hi, decodeCartWrite_of_contains hg] at h
  exact faultSite_of_cartWrite hf h

/-! ### The fault sites of the bus's ROM region -/

/-- BUS.RD.CART lies in one of the two ROM windows, and faults after disposal alone. -/
theorem faultSite_of_busRdCart {a : Addr} (ha : a.toNat ≤ 0x7FFF) (h : exec (.busRdCart a) s = .next t) :
    FaultSite (.busRdCart a) s f := by
  by_cases h0 : a.toNat ≤ 0x3FFF
  · exact faultSite_of_forwardedRead hf (g := .rom0) (.inl rfl) (inRange_iff.mpr ⟨Nat.zero_le _, h0⟩) h
  · exact faultSite_of_forwardedRead hf (g := .romx) (.inl rfl)
      (inRange_iff.mpr ⟨Nat.lt_of_not_le h0, ha⟩) h

/-- BUS.WR.CART lies in the control window or in a ROM region on either side of it, where it faults in a
loaded cartridge too. -/
theorem faultSite_of_busWrCart {a : Addr} {v : Byte} (ha : a.toNat ≤ 0x7FFF)
    (h : exec (.busWrCart a v) s = .next t) : FaultSite (.busWrCart a v) s f := by
  by_cases hlo : a.toNat ≤ 0x1FFF
  · have hsite : DisposedWriteFault s f ∨ RomWriteFault s f := faultSite_of_forwardedWrite hf (g := .romlo)
      (.inl rfl) (inRange_iff.mpr ⟨Nat.zero_le _, hlo⟩) h
    exact hsite.imp_right fun hr => ⟨hr, .inl hlo⟩
  by_cases hbank : a.toNat ≤ 0x3FFF
  · exact .inl (faultSite_of_forwardedWrite hf (g := .bank) (.inl rfl)
      (inRange_iff.mpr ⟨Nat.lt_of_not_le hlo, hbank⟩) h)
  · have hhi : 0x4000 ≤ a.toNat ∧ a.toNat ≤ 0x7FFF := ⟨Nat.lt_of_not_le hbank, ha⟩
    have hsite : DisposedWriteFault s f ∨ RomWriteFault s f :=
      faultSite_of_forwardedWrite hf (g := .romx) (.inl rfl) (inRange_iff.mpr hhi) h
    exact hsite.imp_right fun hr => ⟨hr, .inr hhi⟩

end

/-- Settles O56: the bus's own regions and the other host operations deliver no fault; the header
decoder, the port's regions and the regions forwarded to the port fault at their rows of R192. -/
theorem faultsOnlyAtTheFaultSites : Obligations.FaultsOnlyAtTheFaultSites := by
  intro i s t f hwf h hf
  cases i
  case busRdStub | busRdWram | busRdEcho | busRdHram | busRdIe | busWrStub | busWrWram | busWrEcho
      | busWrHram | busWrIe =>
    obtain ⟨b, -, h⟩ := withBus_next h
    cases eq_fault_of_respond hf h
  case hostAttach | hostDispose | hostRomsize =>
    obtain ⟨c, -, h⟩ := withCart_next h
    cases eq_fault_of_respond hf h
  case hostHdr im =>
    exact headerFault_of_parseHeader_error (parseHeader_error_of_fault hf (.inl rfl) h)
  case hostLoad im =>
    exact headerFault_of_parseHeader_error (parseHeader_error_of_fault hf (.inr rfl) h)
  case cartRdRom0 a => exact faultSite_of_cartRead hf (g := .rom0) h
  case cartRdRomx a => exact faultSite_of_cartRead hf (g := .romx) h
  case cartRdEram a => exact faultSite_of_cartRead hf (g := .eram) h
  case cartRdOor a => exact faultSite_of_cartRead hf (g := .oor) h
  case cartWrRomlo a v => exact faultSite_of_cartWrite hf (g := .romlo) h
  case cartWrBank a v => exact faultSite_of_cartWrite hf (g := .bank) h
  case cartWrRomx a v => exact faultSite_of_cartWrite hf (g := .romx) h
  case cartWrEram a v => exact faultSite_of_cartWrite hf (g := .eram) h
  case cartWrOor a v => exact faultSite_of_cartWrite hf (g := .oor) h
  case busRdEram a => exact faultSite_of_forwardedRead hf (g := .eram) (.inr rfl) hwf h
  case busWrEram a v => exact faultSite_of_forwardedWrite hf (g := .eram) (.inr rfl) hwf h
  case busRdCart a => exact faultSite_of_busRdCart hf (inRange_iff.mp hwf).2 h
  case busWrCart a v => exact faultSite_of_busWrCart hf (inRange_iff.mp hwf).2 h

end Sys2Proof.Machine
end

section
/-! PROOFS. Every transaction answers once cartridge and bus exist, and the state that reset leaves:
`AttachedBlockAlwaysAnswers`, `ResetStateIsLoadThenAttach`. -/

namespace Sys2Proof.Machine

/-! ### Operations that answer -/

theorem exists_withCart_next {s : State} {k : Cartridge → Host.Outcome State Fault Refusal}
    (hc : s.cart ≠ none) (hk : ∀ c, ∃ t, k c = .next t) : ∃ t, withCart s k = .next t := by
  obtain ⟨c, hc⟩ := Option.ne_none_iff_exists'.mp hc
  rw [withCart_some hc]
  exact hk c

theorem exists_withBus_next {s : State} {k : Bus → Host.Outcome State Fault Refusal}
    (hb : s.bus ≠ none) (hk : ∀ b, ∃ t, k b = .next t) : ∃ t, withBus s k = .next t := by
  obtain ⟨b, hb⟩ := Option.ne_none_iff_exists'.mp hb
  rw [withBus_some hb]
  exact hk b

/-- A read answers its byte or its fault. -/
theorem exists_finishRead_next (r : Except FaultRecord Byte) (s : State) :
    ∃ t, finishRead r s = .next t :=
  ⟨_, finishRead_eq r s⟩

/-- A cartridge write answers `Ok` or its fault. -/
theorem exists_finishCartWrite_next (r : Except FaultRecord Cartridge) (s : State) :
    ∃ t, finishCartWrite r s = .next t := by
  cases r with
  | ok c => exact ⟨_, finishCartWrite_ok c s⟩
  | error f => exact ⟨_, finishCartWrite_error f s⟩

/-! ### Transactions that answer -/

/-- A selector up to 0x8 names an operation, at any address (R81). -/
theorem exists_decode_packetAt {r : Request} (hr : r.sel.toNat ≤ 0x8) (a : Addr) :
    ∃ i, decode (packetAt r a) = .ok i := by
  have hsel : slice 19 16 (packetAt r a).word ≤ 0x8 := by
    rwa [packetAt, slice_makeWord_sel _ r.sel.isLt]
  unfold decode
  generalize slice 19 16 (packetAt r a).word = k at hsel ⊢
  match k, hsel with
  | 0, _ | 1, _ | 2, _ | 3, _ | 4, _ | 5, _ | 6, _ | 7, _ | 8, _ => exact ⟨_, rfl⟩
  | k + 9, hlt => omega

section
variable {s : State} (hc : s.cart ≠ none) (hb : s.bus ≠ none)
include hc hb

/-- With a cartridge and a bus every instruction answers: a fault is a response (R200). -/
theorem exists_exec_next (i : Instr) : ∃ t, exec i s = .next t := by
  cases i
  case busRdCart | busRdEram =>
    exact exists_withBus_next hb fun _ => exists_withCart_next hc fun _ => exists_finishRead_next _ s
  case busWrCart | busWrEram =>
    exact exists_withBus_next hb fun _ => exists_withCart_next hc fun _ => exists_finishCartWrite_next _ s
  case busRdStub | busRdWram | busRdEcho | busRdHram | busRdIe | busWrStub =>
    exact exists_withBus_next hb fun _ => ⟨_, respond_next.mpr rfl⟩
  case busWrWram | busWrEcho | busWrHram | busWrIe =>
    exact exists_withBus_next hb fun _ => ⟨_, finishBusWrite_next.mpr rfl⟩
  case cartRdRom0 | cartRdRomx | cartRdOor | cartRdEram =>
    exact exists_withCart_next hc fun _ => exists_finishRead_next _ s
  case cartWrRomlo | cartWrBank | cartWrRomx | cartWrOor | cartWrEram =>
    exact exists_withCart_next hc fun _ => exists_finishCartWrite_next _ s
  case hostHdr im => exact exists_exec_hostHdr_next im s
  case hostLoad im => exact exists_exec_hostLoad_next im s
  case hostAttach => exact exists_withCart_next hc fun _ => ⟨_, finishBusWrite_next.mpr rfl⟩
  case hostDispose | hostRomsize => exact exists_withCart_next hc fun _ => ⟨_, respond_next.mpr rfl⟩

/-- A request with a selector of R81 answers: the fault of its entry check, or its instruction's outcome. -/
theorem exists_serve_next {r : Request} (hr : r.sel.toNat ≤ 0x8) : ∃ t, serve r s = .next t := by
  by_cases h4 : r.sel.toNat < 4
  · cases ha : checkAddress r.addr with
    | error f =>
      rw [serve_of_checkAddress_error h4 (fun _ => hb) (fun _ => hc) ha]
      exact ⟨_, raise_next.mpr rfl⟩
    | ok a =>
      obtain ⟨i, hd⟩ := exists_decode_packetAt hr a
      have hserve : serve r s = exec i s := by
        by_cases h2 : r.sel.toNat < 2
        · exact serve_of_bus h2 hb (checkAddress_ok ha) hd
        · exact serve_of_cart h2 h4 hc (checkAddress_ok ha) hd
      exact hserve ▸ exists_exec_next hc hb i
  · obtain ⟨i, hd⟩ := exists_decode_packetAt hr 0
    exact serve_of_host h4 hd ▸ exists_exec_next hc hb i

end

/-- Settles O12: with none waiting the step is idle, and otherwise it serves the oldest request. -/
theorem attachedBlockAlwaysAnswers : Obligations.AttachedBlockAlwaysAnswers := by
  intro s hc hb hq
  cases hp : s.pending with
  | nil => exact ⟨s, by simp [step, hp]⟩
  | cons r rest =>
    rw [step_cons hp]
    exact exists_serve_next (s := s.setPending rest) hc hb (hq r (by simp [hp]))

/-! ### The state after reset -/

/-- Settles O35: the reset image decodes to the reset header, and the blank draw lists nothing. -/
theorem resetStateIsLoadThenAttach : Obligations.ResetStateIsLoadThenAttach :=
  have hparse : parseHeader Config.defaults resetImage = .ok resetHeader :=
    blockInvHoldsAtReset.headerOfRom _ _ rfl rfl
  ⟨_, _, exec_hostLoad_of_ok hparse, exec_hostAttach_of_cart rfl RamInit.blank, rfl⟩

end Sys2Proof.Machine
end
